-- ==== Sys2Proof/Word.lean ====
section
/-! DEFINITION. The word types of TMCORE. Every register is a 32-bit unsigned word and every buffer element an 8-bit
unsigned byte; nothing in the block is signed (00_scope.md R11). -/

namespace Sys2Proof

/-- A register value or a command word: 32 bits (00_scope.md R11, 10_state.md R20). -/
abbrev Word := BitVec 32

/-- A buffer element or one byte of the wire: 8 bits (00_scope.md R11). -/
abbrev Byte := BitVec 8

/-- A checksum, or one of the three words of a primary header: 16 bits (40_checksum.md R100, 30_encoding.md R87). -/
abbrev Half := BitVec 16

end Sys2Proof
end

