-- ==== Sys2Proof/Config.lean ====
section
/-! DEFINITION. What an implementation fixes (00_scope.md R9), the names the constant tables of the block are indexed by,
and the open values of the spec. -/

namespace Sys2Proof

/-- The seven subsystems, in the listed order of the directory (42_directory.md R140). -/
inductive Subsystem where
  | cdh
  | power
  | comms
  | thermal
  | adcs
  | propulsion
  | payload
deriving DecidableEq, Repr

/-- The wire types of payload fields (30_encoding.md R89). -/
inductive FieldType where
  | f32
  | u8
  | u16
  | u32
deriving DecidableEq, Repr

namespace Config

/-- IN_CAP: the input buffer's capacity in bytes (00_scope.md R9). -/
abbrev inCap : Nat := 256

/-- OUT_CAP: the output buffer's capacity in bytes (00_scope.md R9). -/
abbrev outCap : Nat := 256

/-- NFIELD: the number of FIELD registers (00_scope.md R9). -/
abbrev nField : Nat := 14

/-- NSUB: the number of subsystems (00_scope.md R9). -/
abbrev nSub : Nat := 7

/-- TIME_SOURCE: the answer (S, F) of the external time source to its k-th sample, S any natural number of seconds and F
any fraction 0..255 (00_scope.md R9, 41_timecode.md R120, U2). A FREE VALUE: it has no body, so nothing can be proved of a
value of it (notes/assumptions/3.md). -/
opaque timeSource : Nat → Nat × Byte

/-- MISSION_EPOCH: the instant the time source counts from, an OPEN parameter of the time source that the block never reads
(00_scope.md R9, 41_timecode.md R120, U3; notes/assumptions/9.md). -/
opaque missionEpoch : Nat

/-- Which 1 KiB window of the platform the block answers to: BLOCK_BASE divided by 0x400, an OPEN parameter the block never
reads (20_memory.md R60, U4; notes/assumptions/9.md). -/
opaque blockWindow : Nat

/-- BLOCK_BASE: the platform address of offset 0x000, a multiple of 0x400 (20_memory.md R60). -/
def blockBase : Nat := 0x400 * blockWindow

end Config

end Sys2Proof
end

