-- ==== Sys2Proof/Syntax.lean ====
section
/-! DEFINITION. The command set of TMCORE, one constructor per row of spec/opcode_table.json (30_encoding.md R81). A
command has no operand field: every operand comes from a register (30_encoding.md R80). -/

namespace Sys2Proof

/-- The sixteen commands (30_encoding.md R81). -/
inductive Instr where
  | crcInit
  | crcFeed
  | crcCompute
  | crcAppend
  | crcVerify
  | timeEncode
  | timeDecode
  | dirApidFor
  | dirSubsysFor
  | dirCount
  | phEncode
  | phDecode
  | plEncode
  | plDecode
  | pktAssemble
  | pktParse
deriving DecidableEq, Repr

end Sys2Proof
end

