-- ==== Sys2Proof/WellFormed.lean ====
section
/-! DEFINITION. The fields of a command word (format CMD32) and the checks that a word must pass to be a command
(30_encoding.md R80, R84). A command itself has no operand, so every Instr is well formed: the checks are about words. -/

namespace Sys2Proof

/-- The three fields of a command word (30_encoding.md R80). -/
structure Cmd32 where
  /-- bits [31:8], which must be 0 -/
  zero : BitVec 24
  /-- bits [7:4], the command family -/
  fam : BitVec 4
  /-- bits [3:0], the function within the family -/
  fn : BitVec 4
deriving DecidableEq, Repr

/-- ZERO must be 0: every word with a non-zero bit in [31:8] is illegal (30_encoding.md R84). -/
def Cmd32.zeroOk (c : Cmd32) : Bool := c.zero == 0

/-- Families 6..15 are illegal (30_encoding.md R84). -/
def Cmd32.famOk (c : Cmd32) : Bool := c.fam.toNat < 6

/-- The functions of each family: family 0 has 1..5, family 2 has 0..2, families 1, 3, 4 and 5 have 0..1
(30_encoding.md R81, R84). -/
def Cmd32.fnOk (c : Cmd32) : Bool :=
  match c.fam.toNat with
  | 0 => 1 ≤ c.fn.toNat && c.fn.toNat < 6
  | 2 => c.fn.toNat < 3
  | _ => c.fn.toNat < 2

/-- A command word is well formed when its three fields are (30_encoding.md R84). -/
def Cmd32.wellFormed (c : Cmd32) : Bool := c.zeroOk && c.famOk && c.fnOk

end Sys2Proof
end

