-- ==== Sys2Proof/Decode.lean ====
section
/-! DEFINITION. Decoding a command word and encoding a command (30_encoding.md R80, R81, R84). One word, one command:
there is no length to find (30_encoding.md R85). -/

namespace Sys2Proof

/-- Why a word is no command, by the field that is wrong (30_encoding.md R84). The machine treats all three alike: the
word raises IllegalCommand. -/
inductive DecodeReject where
  /-- a non-zero bit in [31:8] -/
  | zeroField
  /-- a family 6..15 -/
  | unknownFamily
  /-- a function its family does not have -/
  | unknownFunction
deriving DecidableEq, Repr

/-- The fields of a command word (30_encoding.md R80). -/
def Cmd32.ofWord (w : Word) : Cmd32 :=
  { zero := w.extractLsb' 8 24, fam := w.extractLsb' 4 4, fn := w.extractLsb' 0 4 }

/-- The command word with the given fields (30_encoding.md R80). -/
def Cmd32.toWord (c : Cmd32) : Word := c.zero ++ c.fam ++ c.fn

/-- The command map by family and function (30_encoding.md R81). -/
def commandAt (fam fn : Nat) : Option Instr :=
  match fam, fn with
  | 0, 1 => some .crcInit
  | 0, 2 => some .crcFeed
  | 0, 3 => some .crcCompute
  | 0, 4 => some .crcAppend
  | 0, 5 => some .crcVerify
  | 1, 0 => some .timeEncode
  | 1, 1 => some .timeDecode
  | 2, 0 => some .dirApidFor
  | 2, 1 => some .dirSubsysFor
  | 2, 2 => some .dirCount
  | 3, 0 => some .phEncode
  | 3, 1 => some .phDecode
  | 4, 0 => some .plEncode
  | 4, 1 => some .plDecode
  | 5, 0 => some .pktAssemble
  | 5, 1 => some .pktParse
  | _, _ => none

/-- The decoder matches the whole 32-bit word; a word in no row is illegal, named here by its first wrong field
(30_encoding.md R80, R84). -/
def decodeWord (w : Word) : Except DecodeReject Instr :=
  let c := Cmd32.ofWord w
  if !c.zeroOk then .error .zeroField
  else if !c.famOk then .error .unknownFamily
  else
    match commandAt c.fam.toNat c.fn.toNat with
    | some i => .ok i
    | none => .error .unknownFunction

/-- The command word of each command, from the command map's word column (30_encoding.md R81). -/
def encode : Instr → Word
  | .crcInit => 0x00000001
  | .crcFeed => 0x00000002
  | .crcCompute => 0x00000003
  | .crcAppend => 0x00000004
  | .crcVerify => 0x00000005
  | .timeEncode => 0x00000010
  | .timeDecode => 0x00000011
  | .dirApidFor => 0x00000020
  | .dirSubsysFor => 0x00000021
  | .dirCount => 0x00000022
  | .phEncode => 0x00000030
  | .phDecode => 0x00000031
  | .plEncode => 0x00000040
  | .plDecode => 0x00000041
  | .pktAssemble => 0x00000050
  | .pktParse => 0x00000051

/-- The 32-bit command word whose low nbits bits are those of w and whose other bits are 0. A command is one 32-bit word
and a CMD write carries one word, so bits of w above 31 are no part of it (30_encoding.md R80, R85). -/
def tableWord (nbits w : Nat) : Word := BitVec.ofNat 32 (w % 2 ^ nbits)

/-- The instruction the decoder reads from a word numbered as spec/opcode_table.json numbers it. -/
def decodeTableWord (nbits w : Nat) : Option Instr :=
  match decodeWord (tableWord nbits w) with
  | .ok i => some i
  | .error _ => none

end Sys2Proof
end

