-- ==== Sys2Proof/Machine/State.lean ====
section
/-! DEFINITION. The state of TMCORE as plain data (10_state.md R20, R21), the names a step can stop with, and the state
right after reset (70_reset_and_hazards.md R271).

Each result register is held at the width of its used bits; the bits above read 0 (10_state.md R21;
notes/assumptions/13.md). CMD has no field: it is a write-only port that stores nothing (10_state.md R23; notes/assumptions/8.md). -/

namespace Sys2Proof.Machine

/-- Why a step stops. Both stops are those the spec orders for a model. -/
inductive Fault where
  /-- The host made an access the block does not accept: a wrong width, a misaligned word, or an offset of 0x400 or above
  (20_memory.md R64, U6). Raised by Machine/Bus.lean for reads and writes. SAFE: the hardware answers the host with an access
  error and goes on unchanged (notes/assumptions/6.md). -/
  | accessError
  /-- A host byte read, or a command, consumed a buffer byte nothing has written since reset (70_reset_and_hazards.md R271,
  U1). Raised by Machine/Bus.lean for byte reads and by Machine/Ops.lean's input reader for commands. SAFE: the hardware goes
  on with some byte value (notes/assumptions/4.md). -/
  | unwrittenByte
deriving DecidableEq, Repr

/-- Why a step is not taken. -/
inductive Refusal where
  /-- An instruction with no meaning yet, raised by an arm of exec. SAFE. No arm raises it: every command has its meaning. -/
  | notModelled (mnemonic : String)
  /-- A host transaction arrived while the reset input is asserted (70_reset_and_hazards.md R270, U7). Raised by
  Machine/Bus.lean. SAFE: a model refuses it as the spec says (notes/assumptions/10.md). -/
  | resetAsserted
deriving DecidableEq, Repr

/-- The error kinds of the block (30_encoding.md R90). Code 0, success, is no error kind. -/
inductive ErrCode where
  | unknownSubsystem
  | unknownApid
  | malformedPayload
  | incompletePacket
  | invalidTimeCode
  | checksumMismatch
  | malformedHeader
  | rangeError
  | illegalCommand
deriving DecidableEq, Repr

/-- The registers of the window, by name (10_state.md R21). -/
inductive Reg where
  | ctrl
  | cmd
  | status
  | result
  | crcAcc
  | argSubsys
  | argApid
  | argSeq
  | argDlen
  | timeIn
  | timeCoarse
  | timeFine
  | phVersion
  | phType
  | phShf
  | phApid
  | phSeqf
  | phSeq
  | phDlen
  | phLength
  | crcRx
  | crcCalc
  | inLen
  | outLen
  | field (i : Fin Config.nField)
deriving DecidableEq, Repr

/-- One host bus transaction at a block offset, n bytes wide (20_memory.md R63). A write of one byte carries it in the low 8
bits of its value (notes/assumptions/11.md). -/
inductive BusAccess where
  | read (off n : Nat)
  | write (off n : Nat) (v : Word)
deriving DecidableEq, Repr

/-- What reaches the block from outside, one at a time: a host transaction, or a change of the reset input, which lands
between two transactions (00_scope.md R17, 70_reset_and_hazards.md R270). -/
inductive HostEvent where
  | access (a : BusAccess)
  | assertReset
  | releaseReset
deriving DecidableEq, Repr

/-- The bus's answer to an accepted transaction (20_memory.md R61, R62). -/
inductive BusResponse where
  /-- the value of a 32-bit read -/
  | word (v : Word)
  /-- the value of an 8-bit read -/
  | byte (v : Byte)
  /-- a write was performed -/
  | done
deriving DecidableEq, Repr

/-- The byte-addressed part of the window, IN_BUF and OUT_BUF, as cells keyed by block offset (20_memory.md R60). An
offset not listed is a byte nothing has written since reset (70_reset_and_hazards.md R271). The canonical form is
Memory.wf of Machine/Ops.lean. -/
abbrev Memory := List Host.Cell

/-- Everything the spec gives the machine (10_state.md R20), and three fields of the model's own at the end. -/
structure State where
  /-- CTRL[2:0]: CRC_CHK, TIME_SRC, HDR_CHK (10_state.md R22) -/
  ctrl : BitVec 3
  /-- STATUS.ERR, bits [3:0] (10_state.md R24) -/
  err : BitVec 4
  /-- STATUS.DONE, bit [8] (10_state.md R24) -/
  done : Bool
  /-- RESULT (10_state.md R25) -/
  result : Word
  /-- CRC_ACC, the streaming checksum accumulator (10_state.md R26) -/
  crcAcc : Half
  /-- ARG_SUBSYS (10_state.md R28) -/
  argSubsys : Word
  /-- ARG_APID (10_state.md R29) -/
  argApid : Word
  /-- ARG_SEQ (10_state.md R30) -/
  argSeq : Word
  /-- ARG_DLEN (10_state.md R31) -/
  argDlen : Word
  /-- TIME_IN (10_state.md R32) -/
  timeIn : Word
  /-- TIME_COARSE (10_state.md R34) -/
  timeCoarse : BitVec 24
  /-- TIME_FINE (10_state.md R34) -/
  timeFine : Byte
  /-- PH_VERSION (10_state.md R35) -/
  phVersion : BitVec 3
  /-- PH_TYPE (10_state.md R35) -/
  phType : BitVec 1
  /-- PH_SHF (10_state.md R35) -/
  phShf : BitVec 1
  /-- PH_APID (10_state.md R35) -/
  phApid : BitVec 11
  /-- PH_SEQF (10_state.md R35) -/
  phSeqf : BitVec 2
  /-- PH_SEQ (10_state.md R35) -/
  phSeq : BitVec 14
  /-- PH_DLEN (10_state.md R35) -/
  phDlen : Half
  /-- PH_LENGTH (10_state.md R35) -/
  phLength : BitVec 17
  /-- CRC_RX (10_state.md R27) -/
  crcRx : Half
  /-- CRC_CALC (10_state.md R27) -/
  crcCalc : Half
  /-- IN_LEN (10_state.md R33) -/
  inLen : Word
  /-- OUT_LEN (10_state.md R36) -/
  outLen : BitVec 9
  /-- FIELD[0] to FIELD[13] (10_state.md R37) -/
  field : Vector Word Config.nField
  /-- IN_BUF and OUT_BUF (10_state.md R38, R39) -/
  mem : Memory
  /-- the level of the external reset input (70_reset_and_hazards.md R270) -/
  resetAsserted : Bool
  /-- the model's own: how many time samples have been answered, the index of the next free value (notes/assumptions/3.md) -/
  samples : Nat
  /-- the model's own: what is still to reach the block, in arrival order (20_memory.md R71; notes/assumptions/1.md) -/
  events : List HostEvent
  /-- the model's own: the bus's answer to the last transaction (notes/assumptions/1.md) -/
  response : Option BusResponse
deriving DecidableEq, Repr

/-- The state right after reset (70_reset_and_hazards.md R271): CTRL selects the recommended checks, CRC_ACC is the checksum's
initial value, every other register is 0 and no buffer byte is written. The reset input is released. -/
def State.reset : State where
  ctrl := 0b101
  err := 0
  done := false
  result := 0
  crcAcc := 0xFFFF
  argSubsys := 0
  argApid := 0
  argSeq := 0
  argDlen := 0
  timeIn := 0
  timeCoarse := 0
  timeFine := 0
  phVersion := 0
  phType := 0
  phShf := 0
  phApid := 0
  phSeqf := 0
  phSeq := 0
  phDlen := 0
  phLength := 0
  crcRx := 0
  crcCalc := 0
  inLen := 0
  outLen := 0
  field := Vector.replicate Config.nField 0
  mem := []
  resetAsserted := false
  samples := 0
  events := []
  response := none

end Sys2Proof.Machine
end

