-- ==== Sys2Proof/Machine/Flags.lean ====
section
/-! DEFINITION. The one flag register, STATUS (10_state.md R24), the numeric error codes it takes (30_encoding.md R90), and
the control bits of CTRL (10_state.md R22). -/

namespace Sys2Proof.Machine

/-- The numeric code of each error kind (30_encoding.md R90). -/
def ErrCode.code : ErrCode → BitVec 4
  | .unknownSubsystem => 1
  | .unknownApid => 2
  | .malformedPayload => 3
  | .incompletePacket => 4
  | .invalidTimeCode => 5
  | .checksumMismatch => 6
  | .malformedHeader => 7
  | .rangeError => 8
  | .illegalCommand => 9

/-- Every command ends by writing STATUS.ERR and setting STATUS.DONE (10_state.md R24). -/
def State.setStatus (code : BitVec 4) (s : State) : State := { s with err := code, done := true }

/-- STATUS as a register value: ERR in [3:0], DONE in [8], every other bit 0 (10_state.md R24). -/
def State.statusWord (s : State) : Word :=
  s.err.setWidth 32 ||| (if s.done then 0x100 else 0)

/-- CTRL.CRC_CHK: PKT_PARSE checks the trailer (10_state.md R22). -/
def State.crcChk (s : State) : Bool := s.ctrl.getLsbD 0

/-- CTRL.TIME_SRC: the time comes from TIME_IN (10_state.md R22). -/
def State.timeSrc (s : State) : Bool := s.ctrl.getLsbD 1

/-- CTRL.HDR_CHK: PKT_PARSE checks the fixed header fields (10_state.md R22). -/
def State.hdrChk (s : State) : Bool := s.ctrl.getLsbD 2

end Sys2Proof.Machine
end

