-- ==== Sys2Proof/Machine/Ops.lean ====
section
/-! DEFINITION. The named operations over the buffers and the registers, and the one way a command ends: raising an error
or committing its results.

The block has no trap entry and no return from one (60_exceptions.md R248, R249). What takes their place is State.raise: an
error writes STATUS and commits nothing else (60_exceptions.md R240, R242). -/

namespace Sys2Proof.Machine

/-- What a command or a transaction answers. -/
abbrev Out := Host.Outcome State Fault Refusal

/-! The buffers. -/

/-- IN[0] sits at offset 0x100 (10_state.md R38). -/
def inBase : Nat := 0x100

/-- OUT[0] sits at offset 0x200 (10_state.md R39). -/
def outBase : Nat := 0x200

/-- The offset just past OUT_BUF (20_memory.md R60). -/
def bufEnd : Nat := 0x300

/-- The byte at offset a, or none where nothing has written it since reset (70_reset_and_hazards.md R271). -/
def Memory.read : Memory → Nat → Option Byte
  | [], _ => none
  | (b, v) :: m, a => if a = b then some v else Memory.read m a

/-- The memory with byte v at offset a, the cells kept in rising order. -/
def Memory.write : Memory → Nat → Byte → Memory
  | [], a, v => [(a, v)]
  | (b, w) :: m, a, v =>
    if a < b then (a, v) :: (b, w) :: m
    else if a = b then (a, v) :: m
    else (b, w) :: Memory.write m a v

/-- The memory with the bytes bs from offset a upwards. -/
def Memory.writeBytes : Memory → Nat → List Byte → Memory
  | m, _, [] => m
  | m, a, v :: bs => Memory.writeBytes (Memory.write m a v) (a + 1) bs

/-- The n bytes from offset a upwards, or none where one of them is unwritten. -/
def Memory.readBytes (m : Memory) (a : Nat) : Nat → Option (List Byte)
  | 0 => some []
  | n + 1 =>
    match Memory.read m a, Memory.readBytes m (a + 1) n with
    | some v, some bs => some (v :: bs)
    | _, _ => none

/-- The cells' offsets rise strictly, from lo at the least, and lie in the buffers. -/
def Memory.risingFrom (lo : Nat) : Memory → Bool
  | [] => true
  | (a, _) :: m => lo ≤ a && a < bufEnd && Memory.risingFrom (a + 1) m

/-- The canonical form of the memory: offsets strictly rising, all of them in IN_BUF or OUT_BUF. An unlisted offset reads as
unwritten, which no entry can equal. -/
def Memory.wf (m : Memory) : Bool := Memory.risingFrom inBase m

/-! The end of a command. -/

/-- RAISING AN ERROR, for every command alike: STATUS.ERR takes the code, STATUS.DONE is set, and nothing the command staged
is committed (60_exceptions.md R240, R242). -/
def State.raise (e : ErrCode) (s : State) : State := s.setStatus e.code

/-- A command that raises an error leaves the state before it with only STATUS changed (60_exceptions.md R242). -/
def fail (e : ErrCode) (s : State) : Out := .next (s.raise e)

/-- A command that succeeds commits its staged writes t, its scalar result v, and STATUS.ERR = 0 with STATUS.DONE = 1
(60_exceptions.md R243, 10_state.md R25). -/
def succeed (v : Word) (t : State) : Out := .next ({ t with result := v }.setStatus 0)

/-- One check of a command's rule: where it fails the command ends there with that error, and later checks are not made
(60_exceptions.md R240, R244). s is the state before the command. -/
def require (ok : Bool) (e : ErrCode) (s : State) (rest : Out) : Out := if ok then rest else fail e s

/-- The command consumes IN[first : first + count]; an unwritten byte among them stops the model
(70_reset_and_hazards.md R271). -/
def withInput (first count : Nat) (s : State) (k : List Byte → Out) : Out :=
  match s.mem.readBytes (inBase + first) count with
  | some b => k b
  | none => .fault .unwrittenByte

/-- OUTSEQ <- b and OUT_LEN <- len(b): the other bytes of OUT_BUF keep their contents (00_scope.md R13, 10_state.md R36, R39). -/
def State.putOutput (b : List Byte) (s : State) : State :=
  { s with mem := s.mem.writeBytes outBase b, outLen := BitVec.ofNat 9 b.length }

/-! The registers as the host sees them. -/

/-- The offset of each register (10_state.md R21). -/
def Reg.offset : Reg → Nat
  | .ctrl => 0x000
  | .cmd => 0x004
  | .status => 0x008
  | .result => 0x00C
  | .crcAcc => 0x010
  | .argSubsys => 0x014
  | .argApid => 0x018
  | .argSeq => 0x01C
  | .argDlen => 0x020
  | .timeIn => 0x024
  | .timeCoarse => 0x028
  | .timeFine => 0x02C
  | .phVersion => 0x030
  | .phType => 0x034
  | .phShf => 0x038
  | .phApid => 0x03C
  | .phSeqf => 0x040
  | .phSeq => 0x044
  | .phDlen => 0x048
  | .phLength => 0x04C
  | .crcRx => 0x050
  | .crcCalc => 0x054
  | .inLen => 0x058
  | .outLen => 0x05C
  | .field i => 0x060 + 4 * i.val

/-- The register at an offset, or none for a reserved word (10_state.md R21). -/
def Reg.ofOffset (off : Nat) : Option Reg :=
  match off with
  | 0x000 => some .ctrl
  | 0x004 => some .cmd
  | 0x008 => some .status
  | 0x00C => some .result
  | 0x010 => some .crcAcc
  | 0x014 => some .argSubsys
  | 0x018 => some .argApid
  | 0x01C => some .argSeq
  | 0x020 => some .argDlen
  | 0x024 => some .timeIn
  | 0x028 => some .timeCoarse
  | 0x02C => some .timeFine
  | 0x030 => some .phVersion
  | 0x034 => some .phType
  | 0x038 => some .phShf
  | 0x03C => some .phApid
  | 0x040 => some .phSeqf
  | 0x044 => some .phSeq
  | 0x048 => some .phDlen
  | 0x04C => some .phLength
  | 0x050 => some .crcRx
  | 0x054 => some .crcCalc
  | 0x058 => some .inLen
  | 0x05C => some .outLen
  | _ =>
    if h : off % 4 = 0 ∧ 0x060 ≤ off ∧ off < 0x060 + 4 * Config.nField then
      some (.field ⟨(off - 0x060) / 4, by obtain ⟨_, _, h⟩ := h; unfold Config.nField at *; omega⟩)
    else none

/-- What a 32-bit read of a register returns: its used bits, the others 0; CMD reads 0 (20_memory.md R61, 10_state.md R21). -/
def readReg (r : Reg) (s : State) : Word :=
  match r with
  | .ctrl => s.ctrl.setWidth 32
  | .cmd => 0
  | .status => s.statusWord
  | .result => s.result
  | .crcAcc => s.crcAcc.setWidth 32
  | .argSubsys => s.argSubsys
  | .argApid => s.argApid
  | .argSeq => s.argSeq
  | .argDlen => s.argDlen
  | .timeIn => s.timeIn
  | .timeCoarse => s.timeCoarse.setWidth 32
  | .timeFine => s.timeFine.setWidth 32
  | .phVersion => s.phVersion.setWidth 32
  | .phType => s.phType.setWidth 32
  | .phShf => s.phShf.setWidth 32
  | .phApid => s.phApid.setWidth 32
  | .phSeqf => s.phSeqf.setWidth 32
  | .phSeq => s.phSeq.setWidth 32
  | .phDlen => s.phDlen.setWidth 32
  | .phLength => s.phLength.setWidth 32
  | .crcRx => s.crcRx.setWidth 32
  | .crcCalc => s.crcCalc.setWidth 32
  | .inLen => s.inLen
  | .outLen => s.outLen.setWidth 32
  | .field i => s.field[i]

/-- What a 32-bit host write does to a register that stores: the eight RW registers (CTRL keeps bits [2:0]) and FIELD; a
write to an RO register is ignored (20_memory.md R61). A write to CMD stores nothing here: it runs a command, which is
runCommand of Machine/Bus.lean (10_state.md R23). -/
def writeReg (r : Reg) (v : Word) (s : State) : State :=
  match r with
  | .ctrl => { s with ctrl := v.setWidth 3 }
  | .argSubsys => { s with argSubsys := v }
  | .argApid => { s with argApid := v }
  | .argSeq => { s with argSeq := v }
  | .argDlen => { s with argDlen := v }
  | .timeIn => { s with timeIn := v }
  | .inLen => { s with inLen := v }
  | .field i => { s with field := s.field.set i v }
  | .cmd | .status | .result | .crcAcc | .timeCoarse | .timeFine | .phVersion | .phType | .phShf | .phApid | .phSeqf
  | .phSeq | .phDlen | .phLength | .crcRx | .crcCalc | .outLen => s

end Sys2Proof.Machine
end

