-- ==== Sys2Proof/Machine/Operands.lean ====
section
/-! DEFINITION. The forms operands and results take: big-endian byte sequences (00_scope.md R12, 20_memory.md R65), the length
operand IN_LEN, and the time sample (41_timecode.md R121). -/

namespace Sys2Proof.Machine

/-- be16(v) (00_scope.md R12). -/
def be16 (v : Half) : List Byte := [v.extractLsb' 8 8, v.extractLsb' 0 8]

/-- be24(v) (00_scope.md R12). -/
def be24 (v : BitVec 24) : List Byte := [v.extractLsb' 16 8, v.extractLsb' 8 8, v.extractLsb' 0 8]

/-- be32(v) (00_scope.md R12). -/
def be32 (v : Word) : List Byte :=
  [v.extractLsb' 24 8, v.extractLsb' 16 8, v.extractLsb' 8 8, v.extractLsb' 0 8]

/-- unbe(b): the natural number whose big-endian bytes are b (00_scope.md R12). -/
def unbe (b : List Byte) : Nat := b.foldl (fun acc x => acc * 256 + x.toNat) 0

/-- IN_LEN as a number of bytes (10_state.md R33). -/
def State.inCount (s : State) : Nat := s.inLen.toNat

/-- IN_LEN <= 256, the check a command that reads IN_BUF makes before any other (60_exceptions.md R245). -/
def State.inLenOk (s : State) : Bool := s.inCount ≤ Config.inCap

/-- The time a sample (S, F) of the external time source stands for: S mod 2^24, and F (41_timecode.md R121). -/
def timeOfSample (sample : Nat × Byte) : BitVec 24 × Byte := (BitVec.ofNat 24 sample.1, sample.2)

/-- sample_time(): TIME_IN where CTRL.TIME_SRC = 1, else one answer of the external time source, a free value
(41_timecode.md R121). -/
def sampleTime (s : State) : BitVec 24 × Byte :=
  if s.timeSrc then (s.timeIn.extractLsb' 8 24, s.timeIn.extractLsb' 0 8)
  else timeOfSample (Config.timeSource s.samples)

/-- The sample a command took is used up, so that the next one is fresh (41_timecode.md R121, 70_reset_and_hazards.md R283).
With TIME_SRC = 1 the time source is not asked. -/
def State.sampleTaken (s : State) : State :=
  if s.timeSrc then s else { s with samples := s.samples + 1 }

/-- TIME_COARSE <- coarse; TIME_FINE <- fine (41_timecode.md R122). -/
def State.putTime (t : BitVec 24 × Byte) (s : State) : State := { s with timeCoarse := t.1, timeFine := t.2 }

/-- The secondary header of a time: be24(coarse) ++ [fine] (30_encoding.md R88). -/
def secondaryHeader (t : BitVec 24 × Byte) : List Byte := be24 t.1 ++ [t.2]

/-- The time in the four bytes of a secondary header: unbe of the first three, and the last (41_timecode.md R123). -/
def timeOfBytes (b : List Byte) : BitVec 24 × Byte := (BitVec.ofNat 24 (unbe (b.take 3)), b.getD 3 0)

/-- (coarse << 8) OR fine (30_encoding.md R82). -/
def timeWord (t : BitVec 24 × Byte) : Word := t.1 ++ t.2

end Sys2Proof.Machine
end

