-- ==== Sys2Proof/Machine/Checksum.lean ====
section
/-! DEFINITION. The checksum engine: the checksum function and its five commands (40_checksum.md). -/

namespace Sys2Proof.Machine

/-- One shift step: the condition tests bit 15 before the shift (40_checksum.md R100). -/
def crcShift (c : Half) : Half := if c.getLsbD 15 then (c <<< 1) ^^^ 0x1021 else c <<< 1

/-- The eight shift steps that follow each byte (40_checksum.md R100). -/
def crcShift8 (c : Half) : Half :=
  crcShift (crcShift (crcShift (crcShift (crcShift (crcShift (crcShift (crcShift c)))))))

/-- One byte: it is XORed into the high byte, then eight shift steps (40_checksum.md R100). -/
def crcByte (c : Half) (x : Byte) : Half := crcShift8 (c ^^^ (x.setWidth 16 <<< 8))

/-- crc_update(c, b) (40_checksum.md R100). -/
def crcUpdate (c : Half) (b : List Byte) : Half := b.foldl crcByte c

/-- The initial value of the checksum (40_checksum.md R100). -/
def crcInitial : Half := 0xFFFF

/-- crc16(b) (40_checksum.md R100). -/
def crc16 (b : List Byte) : Half := crcUpdate crcInitial b

/-- CRC_INIT (40_checksum.md R101). -/
def execCrcInit (s : State) : Out :=
  succeed (crcInitial.setWidth 32) { s with crcAcc := crcInitial }

/-- CRC_FEED (40_checksum.md R102). -/
def execCrcFeed (s : State) : Out :=
  require s.inLenOk .rangeError s <|
  withInput 0 s.inCount s fun b =>
    let c := crcUpdate s.crcAcc b
    succeed (c.setWidth 32) { s with crcAcc := c }

/-- CRC_COMPUTE (40_checksum.md R103). -/
def execCrcCompute (s : State) : Out :=
  require s.inLenOk .rangeError s <|
  withInput 0 s.inCount s fun b =>
    let v := crc16 b
    succeed (v.setWidth 32) { s with crcCalc := v }

/-- CRC_APPEND: its output must fit OUT_BUF (40_checksum.md R104). -/
def execCrcAppend (s : State) : Out :=
  require s.inLenOk .rangeError s <|
  require (s.inCount + 2 ≤ Config.outCap) .rangeError s <|
  withInput 0 s.inCount s fun b =>
    let v := crc16 b
    succeed (v.setWidth 32) ({ s with crcCalc := v }.putOutput (b ++ be16 v))

/-- The last two of n input bytes, the received trailer, as a number of 16 bits (40_checksum.md R105). -/
def trailerOf (n : Nat) (b : List Byte) : Half := BitVec.ofNat 16 (unbe (b.drop (n - 2)))

/-- The checksum of all but the last two of n input bytes (40_checksum.md R105). -/
def bodyCrc (n : Nat) (b : List Byte) : Half := crc16 (b.take (n - 2))

/-- CRC_VERIFY (40_checksum.md R105). -/
def execCrcVerify (s : State) : Out :=
  require s.inLenOk .rangeError s <|
  require (2 ≤ s.inCount) .incompletePacket s <|
  withInput 0 s.inCount s fun b =>
    let rx := trailerOf s.inCount b
    let own := bodyCrc s.inCount b
    require (rx == own) .checksumMismatch s <|
    succeed (own.setWidth 32) { s with crcRx := rx, crcCalc := own }

end Sys2Proof.Machine
end

