-- ==== Sys2Proof/Machine/Directory.lean ====
section
/-! DEFINITION. The APID directory, a constant table, and its three commands (42_directory.md). -/

namespace Sys2Proof.Machine

/-- The subsystem a subsystem index names; 7 and above name none (42_directory.md R140). -/
def subsystemOfIndex : Nat → Option Subsystem
  | 0 => some .cdh
  | 1 => some .power
  | 2 => some .comms
  | 3 => some .thermal
  | 4 => some .adcs
  | 5 => some .propulsion
  | 6 => some .payload
  | _ => none

/-- The index column of the directory table (42_directory.md R140). -/
def subsystemIndex : Subsystem → Nat
  | .cdh => 0
  | .power => 1
  | .comms => 2
  | .thermal => 3
  | .adcs => 4
  | .propulsion => 5
  | .payload => 6

/-- APID_MAP, the APID column of the directory table (42_directory.md R140; notes/assumptions/7.md). -/
def apidMap : Subsystem → BitVec 11
  | .cdh => 0x001
  | .power => 0x002
  | .comms => 0x003
  | .thermal => 0x004
  | .adcs => 0x005
  | .propulsion => 0x006
  | .payload => 0x007

/-- SUBSYS_OF, the directory read from the APID; an APID outside 1..7 has no entry (42_directory.md R140). -/
def subsysOf : Nat → Option Subsystem
  | 1 => some .cdh
  | 2 => some .power
  | 3 => some .comms
  | 4 => some .thermal
  | 5 => some .adcs
  | 6 => some .propulsion
  | 7 => some .payload
  | _ => none

/-- The subsystem a command's index operand names, or UnknownSubsystem (30_encoding.md R83). -/
def withSubsystem (index : Word) (s : State) (k : Subsystem → Out) : Out :=
  match subsystemOfIndex index.toNat with
  | some y => k y
  | none => fail .unknownSubsystem s

/-- The subsystem an APID belongs to, or UnknownApid (42_directory.md R143, 45_framer.md R211 step 4). -/
def withApid (apid : Nat) (s : State) (k : Subsystem → Out) : Out :=
  match subsysOf apid with
  | some y => k y
  | none => fail .unknownApid s

/-- DIR_APID_FOR (42_directory.md R142). -/
def execDirApidFor (s : State) : Out :=
  withSubsystem s.argSubsys s fun y => succeed ((apidMap y).setWidth 32) s

/-- DIR_SUBSYS_FOR (42_directory.md R143). -/
def execDirSubsysFor (s : State) : Out :=
  withApid s.argApid.toNat s fun y => succeed (BitVec.ofNat 32 (subsystemIndex y)) s

/-- DIR_COUNT (42_directory.md R144). -/
def execDirCount (s : State) : Out := succeed (BitVec.ofNat 32 Config.nSub) s

end Sys2Proof.Machine
end

