-- ==== Sys2Proof/Machine/Payload.lean ====
section
/-! DEFINITION. The payload schema multiplexer: the schema table, the field codecs, PL_ENCODE and PL_DECODE
(44_payload_mux.md). -/

namespace Sys2Proof.Machine

/-- SCHEMA(s): the field types of each subsystem's payload in order, packed with no padding (44_payload_mux.md R181, R183). -/
def schema : Subsystem → List FieldType
  | .cdh => [.f32, .f32, .f32, .u8, .u8, .f32, .u32, .u16, .u8, .u8]
  | .power => [.f32, .f32, .f32, .f32, .f32, .f32, .f32, .f32, .u8, .u8]
  | .comms => [.f32, .f32, .f32, .f32, .f32, .u32, .u8, .u8, .u8, .u8]
  | .thermal => [.f32, .u8, .u8, .u8, .u8, .f32, .f32, .u8]
  | .adcs => [.f32, .f32, .f32, .f32, .f32, .f32, .f32, .f32, .f32, .f32, .u8, .u8, .u8, .u8]
  | .propulsion => [.f32, .f32, .f32, .f32, .u8, .u8, .u8, .u8, .f32, .f32, .u8, .u8]
  | .payload => [.u8, .u8, .u16, .u8, .f32, .f32, .u8, .u8]

/-- width(t): the wire bytes of a field type (44_payload_mux.md R182). -/
def fieldWidth : FieldType → Nat
  | .f32 => 4
  | .u8 => 1
  | .u16 => 2
  | .u32 => 4

/-- nf(s): the field count (44_payload_mux.md R180). -/
def nf (y : Subsystem) : Nat := (schema y).length

/-- plen(s): the payload length, the sum of the field widths (44_payload_mux.md R180). -/
def plen (y : Subsystem) : Nat := ((schema y).map fieldWidth).sum

/-- fits(t, v): every pattern fits a float field, an integer must fit its wire width (44_payload_mux.md R182, R184). -/
def fits (t : FieldType) (v : Word) : Bool := t == .f32 || v.toNat < 2 ^ (8 * fieldWidth t)

/-- enc_field(t, v): the big-endian bytes of v at the type's width (44_payload_mux.md R182, 30_encoding.md R89). -/
def encField (t : FieldType) (v : Word) : List Byte :=
  match t with
  | .f32 | .u32 => be32 v
  | .u16 => be16 (v.setWidth 16)
  | .u8 => [v.setWidth 8]

/-- dec_field(t, b): the field's bytes as a zero-extended number (44_payload_mux.md R182). -/
def decField (b : List Byte) : Word := BitVec.ofNat 32 (unbe b)

/-- The bytes of the fields in order, or none where an integer does not fit its wire type (44_payload_mux.md R185). -/
def encFields : List FieldType → List Word → Option (List Byte)
  | [], _ => some []
  | _ :: _, [] => none
  | t :: ts, v :: vs =>
    if fits t v then
      match encFields ts vs with
      | some p => some (encField t v ++ p)
      | none => none
    else none

/-- enc_payload(s): FIELD[nf(s)..13] are not read (44_payload_mux.md R185). -/
def encPayload (y : Subsystem) (field : Vector Word Config.nField) : Option (List Byte) :=
  encFields (schema y) field.toList

/-- The field values in the bytes of a payload, each field starting where the one before it ends (44_payload_mux.md R181,
R186). -/
def decFields : List FieldType → List Byte → List Word
  | [], _ => []
  | t :: ts, b => decField (b.take (fieldWidth t)) :: decFields ts (b.drop (fieldWidth t))

/-- dec_payload(s, p): all 14 FIELD registers, 0 beyond the schema's fields (44_payload_mux.md R186). -/
def decPayload (y : Subsystem) (p : List Byte) : Vector Word Config.nField :=
  Vector.ofFn fun i => (decFields (schema y) p).getD i.val 0

/-- The payload of FIELD under a schema, or RangeError (44_payload_mux.md R185). -/
def withPayload (y : Subsystem) (s : State) (k : List Byte → Out) : Out :=
  match encPayload y s.field with
  | some p => k p
  | none => fail .rangeError s

/-- PL_ENCODE (44_payload_mux.md R187). -/
def execPlEncode (s : State) : Out :=
  withSubsystem s.argSubsys s fun y =>
  withPayload y s fun p =>
    succeed (BitVec.ofNat 32 (plen y)) (s.putOutput p)

/-- PL_DECODE (44_payload_mux.md R188). -/
def execPlDecode (s : State) : Out :=
  require s.inLenOk .rangeError s <|
  withSubsystem s.argSubsys s fun y =>
  require (s.inCount == plen y) .malformedPayload s <|
  withInput 0 s.inCount s fun p =>
    succeed (BitVec.ofNat 32 (nf y)) { s with field := decPayload y p }

end Sys2Proof.Machine
end

