-- ==== Sys2Proof/Machine/PrimaryHeader.lean ====
section
/-! DEFINITION. The primary header codec: PH_ENCODE and PH_DECODE (43_primary_header.md), over the fields of the three
header words (30_encoding.md R87). -/

namespace Sys2Proof.Machine

/-- pack_ph(a, q, d): version 0, type 0, secondary-header flag 1 and the APID; sequence flags 0b11 and the count; the data
length (43_primary_header.md R160). -/
def packPh (apid : BitVec 11) (seq : BitVec 14) (dlen : Half) : List Byte :=
  be16 (0x0800 ||| apid.setWidth 16) ++ be16 (0xC000 ||| seq.setWidth 16) ++ be16 dlen

/-- The k-th 16-bit word of a header, k counting from 0: unpack_ph (43_primary_header.md R161). -/
def headerWord (k : Nat) (h : List Byte) : Half := BitVec.ofNat 16 (unbe ((h.drop (2 * k)).take 2))

/-- word1[15:13] (30_encoding.md R87). -/
def versionOf (w1 : Half) : BitVec 3 := w1.extractLsb' 13 3

/-- word1[12] (30_encoding.md R87). -/
def typeOf (w1 : Half) : BitVec 1 := w1.extractLsb' 12 1

/-- word1[11] (30_encoding.md R87). -/
def shfOf (w1 : Half) : BitVec 1 := w1.extractLsb' 11 1

/-- word1[10:0] (30_encoding.md R87). -/
def apidOf (w1 : Half) : BitVec 11 := w1.extractLsb' 0 11

/-- word2[15:14] (30_encoding.md R87). -/
def seqfOf (w2 : Half) : BitVec 2 := w2.extractLsb' 14 2

/-- word2[13:0] (30_encoding.md R87). -/
def seqOf (w2 : Half) : BitVec 14 := w2.extractLsb' 0 14

/-- declared_total(w3) = w3 + 9, on naturals (43_primary_header.md R162). -/
def declaredTotal (w3 : Half) : Nat := w3.toNat + 9

/-- The eight header result registers take the fields of the three words; PH_LENGTH is w3 + 1 in 17 bits
(43_primary_header.md R161, 10_state.md R35). -/
def State.putHeader (w1 w2 w3 : Half) (s : State) : State :=
  { s with
    phVersion := versionOf w1
    phType := typeOf w1
    phShf := shfOf w1
    phApid := apidOf w1
    phSeqf := seqfOf w2
    phSeq := seqOf w2
    phDlen := w3
    phLength := w3.setWidth 17 + 1 }

/-- PH_ENCODE: an operand too wide for its field is rejected, so no bit is cut off by the packing
(43_primary_header.md R160). -/
def execPhEncode (s : State) : Out :=
  require (s.argApid.toNat ≤ 0x7FF) .rangeError s <|
  require (s.argSeq.toNat ≤ 0x3FFF) .rangeError s <|
  require (s.argDlen.toNat ≤ 0xFFFF) .rangeError s <|
  succeed 6 (s.putOutput (packPh (s.argApid.setWidth 11) (s.argSeq.setWidth 14) (s.argDlen.setWidth 16)))

/-- PH_DECODE: it consumes the first six input bytes and validates the declared total against IN_LEN
(43_primary_header.md R161). -/
def execPhDecode (s : State) : Out :=
  require s.inLenOk .rangeError s <|
  require (6 ≤ s.inCount) .incompletePacket s <|
  withInput 0 6 s fun h =>
    let w3 := headerWord 2 h
    require (declaredTotal w3 ≤ s.inCount) .incompletePacket s <|
    succeed (BitVec.ofNat 32 (declaredTotal w3)) (s.putHeader (headerWord 0 h) (headerWord 1 h) w3)

end Sys2Proof.Machine
end

