-- ==== Sys2Proof/Machine/Packet.lean ====
section
/-! DEFINITION. The packet framer and deframer: PKT_ASSEMBLE and PKT_PARSE (45_framer.md), over the codecs of the other
families. -/

namespace Sys2Proof.Machine

/-- A packet before its trailer: primary header with the directory's APID and the data length plen + 3, secondary header,
payload (45_framer.md R210). -/
def packetBody (y : Subsystem) (seq : BitVec 14) (t : BitVec 24 × Byte) (p : List Byte) : List Byte :=
  packPh (apidMap y) seq (BitVec.ofNat 16 ((secondaryHeader t).length + p.length - 1)) ++ secondaryHeader t ++ p

/-- A packet: the body and the big-endian checksum of it (45_framer.md R210, 30_encoding.md R86). -/
def packetOf (y : Subsystem) (seq : BitVec 14) (t : BitVec 24 × Byte) (p : List Byte) : List Byte :=
  packetBody y seq t p ++ be16 (crc16 (packetBody y seq t p))

/-- PKT_ASSEMBLE: one time sample is taken after every check has passed (45_framer.md R210, 60_exceptions.md R244). -/
def execPktAssemble (s : State) : Out :=
  withSubsystem s.argSubsys s fun y =>
  require (s.argSeq.toNat ≤ 0x3FFF) .rangeError s <|
  withPayload y s fun p =>
    let t := sampleTime s
    let seq := s.argSeq.setWidth 14
    succeed (BitVec.ofNat 32 (12 + plen y))
      ({ (s.sampleTaken).putTime t with crcCalc := crc16 (packetBody y seq t p) }.putOutput (packetOf y seq t p))

/-- Version 0, type 0, secondary-header flag 1 and sequence flags 0b11 (45_framer.md R211 step 3). -/
def fixedFieldsOk (w1 w2 : Half) : Bool :=
  versionOf w1 == 0 && typeOf w1 == 0 && shfOf w1 == 1 && seqfOf w2 == 0b11

/-- PKT_PARSE, its eight checks in the order of the rule: 1 range, 2 header present, 3 fixed fields, 4 APID, 5 declared total
available, 6 declared length the schema's, 7 nothing beyond the packet, 8 checksum (45_framer.md R211). -/
def execPktParse (s : State) : Out :=
  let n := s.inCount
  require s.inLenOk .rangeError s <|
  require (6 ≤ n) .incompletePacket s <|
  withInput 0 6 s fun h =>
  let w1 := headerWord 0 h
  let w2 := headerWord 1 h
  let w3 := headerWord 2 h
  require (!s.hdrChk || fixedFieldsOk w1 w2) .malformedHeader s <|
  withApid (apidOf w1).toNat s fun y =>
  require (declaredTotal w3 ≤ n) .incompletePacket s <|
  require (w3.toNat + 1 == 4 + plen y) .malformedPayload s <|
  require (n == declaredTotal w3) .malformedPayload s <|
  withInput 0 n s fun b =>
  let rx := trailerOf n b
  let own := bodyCrc n b
  require (!s.crcChk || rx == own) .checksumMismatch s <|
  succeed (BitVec.ofNat 32 (subsystemIndex y))
    { (s.putHeader w1 w2 w3).putTime (timeOfBytes (b.drop 6)) with
      field := decPayload y ((b.drop 10).take (plen y))
      crcRx := rx
      crcCalc := own }

end Sys2Proof.Machine
end

