-- ==== Sys2Proof/Machine/TimeCode.lean ====
section
/-! DEFINITION. The secondary header codec: TIME_ENCODE and TIME_DECODE (41_timecode.md). -/

namespace Sys2Proof.Machine

/-- TIME_ENCODE: exactly one time sample is taken (41_timecode.md R121, R122). -/
def execTimeEncode (s : State) : Out :=
  let t := sampleTime s
  succeed (timeWord t) (((s.sampleTaken).putTime t).putOutput (secondaryHeader t))

/-- TIME_DECODE: the time source is not consulted (41_timecode.md R123). -/
def execTimeDecode (s : State) : Out :=
  require s.inLenOk .rangeError s <|
  require (s.inCount == 4) .invalidTimeCode s <|
  withInput 0 4 s fun b =>
    let t := timeOfBytes b
    succeed (timeWord t) (s.putTime t)

end Sys2Proof.Machine
end

