-- ==== Sys2Proof/Machine/Dispatch.lean ====
section
/-! DEFINITION. One arm per command: its meaning (30_encoding.md R81). -/

namespace Sys2Proof.Machine

def exec (i : Instr) (s : State) : Host.Outcome State Fault Refusal :=
  match i with
  | .crcInit => Sys2Proof.Machine.execCrcInit s
  | .crcFeed => Sys2Proof.Machine.execCrcFeed s
  | .crcCompute => Sys2Proof.Machine.execCrcCompute s
  | .crcAppend => Sys2Proof.Machine.execCrcAppend s
  | .crcVerify => Sys2Proof.Machine.execCrcVerify s
  | .timeEncode => Sys2Proof.Machine.execTimeEncode s
  | .timeDecode => Sys2Proof.Machine.execTimeDecode s
  | .dirApidFor => Sys2Proof.Machine.execDirApidFor s
  | .dirSubsysFor => Sys2Proof.Machine.execDirSubsysFor s
  | .dirCount => Sys2Proof.Machine.execDirCount s
  | .phEncode => Sys2Proof.Machine.execPhEncode s
  | .phDecode => Sys2Proof.Machine.execPhDecode s
  | .plEncode => Sys2Proof.Machine.execPlEncode s
  | .plDecode => Sys2Proof.Machine.execPlDecode s
  | .pktAssemble => Sys2Proof.Machine.execPktAssemble s
  | .pktParse => Sys2Proof.Machine.execPktParse s

end Sys2Proof.Machine
end

