-- ==== Sys2Proof/Machine/Bus.lean ====
section
/-! DEFINITION. What the block does with each event from outside: a host bus transaction (20_memory.md R61 to R64), a CMD
write that runs a command (10_state.md R23), or a change of the reset input (70_reset_and_hazards.md R270). -/

namespace Sys2Proof.Machine

/-- accepted(off, n) (20_memory.md R63). -/
def accepted (off n : Nat) : Bool :=
  off < 0x400 &&
    ((n == 4 && off % 4 == 0 && (off < 0x100 || 0x300 ≤ off)) || (n == 1 && 0x100 ≤ off && off < 0x300))

/-- register_value(off): a reserved word reads 0 (20_memory.md R61). -/
def readWordAt (off : Nat) (s : State) : Word :=
  match Reg.ofOffset off with
  | some r => readReg r s
  | none => 0

/-- A 32-bit write that starts no command: a reserved word ignores it (20_memory.md R61). -/
def writeWordAt (off : Nat) (v : Word) (s : State) : State :=
  match Reg.ofOffset off with
  | some r => writeReg r v s
  | none => s

/-- An 8-bit write: IN stores the byte, OUT ignores it (20_memory.md R62). -/
def writeByteAt (off : Nat) (v : Byte) (s : State) : State :=
  if off < outBase then { s with mem := s.mem.write off v } else s

/-- run_command(v): the decoded command runs; a word that is no command raises IllegalCommand and reads no operand
(10_state.md R23, 60_exceptions.md R247). -/
def runCommand (w : Word) (s : State) : Out :=
  match decodeWord w with
  | .ok i => exec i s
  | .error _ => fail .illegalCommand s

/-- MemRead(off, n): the block's state is unchanged, the value goes to the host (20_memory.md R63, R68). -/
def memRead (off n : Nat) (s : State) : Out :=
  if !accepted off n then .fault .accessError
  else if n = 4 then .next { s with response := some (.word (readWordAt off s)) }
  else
    match s.mem.read off with
    | some v => .next { s with response := some (.byte v) }
    | none => .fault .unwrittenByte

/-- The offset of CMD (10_state.md R23). -/
def cmdOffset : Nat := 0x004

/-- MemWrite(off, n, v) (20_memory.md R63). -/
def memWrite (off n : Nat) (v : Word) (s : State) : Out :=
  let t := { s with response := some .done }
  if !accepted off n then .fault .accessError
  else if n = 4 then
    if off = cmdOffset then runCommand v t else .next (writeWordAt off v t)
  else .next (writeByteAt off (v.setWidth 8) t)

/-- One host transaction (20_memory.md R63). -/
def access (a : BusAccess) (s : State) : Out :=
  match a with
  | .read off n => memRead off n s
  | .write off n v => memWrite off n v s

/-- Asserting reset puts every piece of the block's state into its reset state (70_reset_and_hazards.md R270, R271). What is
outside the block stays: the events still to come, and the time source's count of answers. -/
def State.takeReset (s : State) : State :=
  { State.reset with resetAsserted := true, samples := s.samples, events := s.events }

/-- One event. While reset is asserted a host transaction is refused (70_reset_and_hazards.md R270, U7). -/
def handle (e : HostEvent) (s : State) : Out :=
  match e with
  | .access a => if s.resetAsserted then .refused .resetAsserted else access a s
  | .assertReset => .next s.takeReset
  | .releaseReset => .next { s with resetAsserted := false }

/-- s with the CMD write of word w as the next event, and the reset input released so that the block accepts it. -/
def State.withCommandWord (w : Word) (s : State) : State :=
  { s with resetAsserted := false, events := .access (.write cmdOffset 4 w) :: s.events }

end Sys2Proof.Machine
end

