-- ==== Sys2Proof/Machine/Step.lean ====
section
/-! DEFINITION. One step: the block takes the next event from outside, whole (20_memory.md R67, R71). With nothing pending it
holds its state (60_exceptions.md R255; notes/assumptions/2.md). The step only takes the event off the list; what the event
does is Machine/Bus.lean's. -/

namespace Sys2Proof.Machine

/-- One step of the block. -/
def step (s : State) : Host.Outcome State Fault Refusal :=
  match s.events with
  | [] => .next s
  | e :: rest => handle e { s with events := rest }

/-- s with the command whose word is w (numbered as spec/opcode_table.json numbers it) as what the very next step runs: the
host's CMD write of that word is the next event (notes/assumptions/2.md). -/
def State.withFetchWord (s : State) (nbits w : Nat) : State := s.withCommandWord (tableWord nbits w)

end Sys2Proof.Machine
end

