-- ==== Sys2Proof/Machine/HostProgram.lean ====
section
/-! DEFINITION. The host program notation of the spec as events (30_encoding.md R91, R92). LOADIN and COPYOUT expand to one bus
transaction per event; EXPECT has no bus effect beyond its read, so it is a read. -/

namespace Sys2Proof.Machine

/-- W32 REG, v (30_encoding.md R91). -/
def w32 (r : Reg) (v : Word) : HostEvent := .access (.write r.offset 4 v)

/-- R32 REG (30_encoding.md R91). -/
def r32 (r : Reg) : HostEvent := .access (.read r.offset 4)

/-- W8 IN[k], v (30_encoding.md R91). -/
def w8In (k : Nat) (v : Byte) : HostEvent := .access (.write (inBase + k) 1 (v.setWidth 32))

/-- R8 IN[k] (30_encoding.md R91). -/
def r8In (k : Nat) : HostEvent := .access (.read (inBase + k) 1)

/-- R8 OUT[k] (30_encoding.md R91). -/
def r8Out (k : Nat) : HostEvent := .access (.read (outBase + k) 1)

/-- CMD <mnemonic> (30_encoding.md R92). -/
def cmdEvent (i : Instr) : HostEvent := w32 .cmd (encode i)

/-- The byte writes of LOADIN, from IN[k] upwards (30_encoding.md R92). -/
def loadBytes : Nat → List Byte → List HostEvent
  | _, [] => []
  | k, v :: bs => w8In k v :: loadBytes (k + 1) bs

/-- LOADIN b0, ..., bn-1 (30_encoding.md R92). -/
def loadIn (b : List Byte) : List HostEvent := loadBytes 0 b ++ [w32 .inLen (BitVec.ofNat 32 b.length)]

/-- The host's loop of COPYOUT over n bytes from OUT[k] upwards: read a byte, write it to IN (30_encoding.md R92). The byte
the host writes is the one its read returned; where that byte is unwritten the read has already faulted. -/
def copyBytes (s : State) (k : Nat) : Nat → List HostEvent
  | 0 => []
  | n + 1 => r8Out k :: w8In k ((s.mem.read (outBase + k)).getD 0) :: copyBytes s (k + 1) n

/-- COPYOUT as the host performs it against a block in state s (30_encoding.md R92). -/
def copyOut (s : State) : List HostEvent :=
  r32 .outLen :: copyBytes s 0 s.outLen.toNat ++ [w32 .inLen (BitVec.ofNat 32 s.outLen.toNat)]

end Sys2Proof.Machine
end

