-- ==== Sys2Proof/Safety.lean ====
section
/-! DEFINITION. The terms claims are stated in: the rules of the spec written again in its own notation, on natural numbers
and byte lists, apart from the machine's definitions; what it means that a buffer holds bytes; and the invariant of the
machine. -/

namespace Sys2Proof.Rule

/-- unbe(b) as the spec's sum: b[i] * 256^(len(b)-1-i) over i (00_scope.md R12). -/
def beNat : List Byte → Nat
  | [] => 0
  | x :: b => x.toNat * 256 ^ b.length + beNat b

/-- The n big-endian bytes of v: be16, be24 and be32 are n = 2, 3, 4 (00_scope.md R12). -/
def beBytes : Nat → Nat → List Byte
  | 0, _ => []
  | n + 1, v => BitVec.ofNat 8 (v / 256 ^ n) :: beBytes n v

/-- One of the eight steps of crc_update, on naturals with the rule's mask (40_checksum.md R100). -/
def crcStep (c : Nat) : Nat :=
  if c / 2 ^ 15 % 2 = 1 then ((c <<< 1) ^^^ 0x1021) &&& 0xFFFF else (c <<< 1) &&& 0xFFFF

/-- The step repeated n times (40_checksum.md R100). -/
def crcSteps : Nat → Nat → Nat
  | 0, c => c
  | n + 1, c => crcSteps n (crcStep c)

/-- crc_update(c, b) (40_checksum.md R100). -/
def crcUpdate : Nat → List Byte → Nat
  | c, [] => c
  | c, x :: b => crcUpdate (crcSteps 8 (c ^^^ (x.toNat <<< 8))) b

/-- crc16(b) (40_checksum.md R100). -/
def crc16 (b : List Byte) : Nat := crcUpdate 0xFFFF b

/-- The field layouts, type and offset of each field, by subsystem index: the seven tables of 44_payload_mux.md R181. -/
def layout : Nat → List (FieldType × Nat)
  | 0 => [(.f32, 0), (.f32, 4), (.f32, 8), (.u8, 12), (.u8, 13), (.f32, 14), (.u32, 18), (.u16, 22), (.u8, 24), (.u8, 25)]
  | 1 => [(.f32, 0), (.f32, 4), (.f32, 8), (.f32, 12), (.f32, 16), (.f32, 20), (.f32, 24), (.f32, 28), (.u8, 32), (.u8, 33)]
  | 2 => [(.f32, 0), (.f32, 4), (.f32, 8), (.f32, 12), (.f32, 16), (.u32, 20), (.u8, 24), (.u8, 25), (.u8, 26), (.u8, 27)]
  | 3 => [(.f32, 0), (.u8, 4), (.u8, 5), (.u8, 6), (.u8, 7), (.f32, 8), (.f32, 12), (.u8, 16)]
  | 4 => [(.f32, 0), (.f32, 4), (.f32, 8), (.f32, 12), (.f32, 16), (.f32, 20), (.f32, 24), (.f32, 28), (.f32, 32), (.f32, 36),
      (.u8, 40), (.u8, 41), (.u8, 42), (.u8, 43)]
  | 5 => [(.f32, 0), (.f32, 4), (.f32, 8), (.f32, 12), (.u8, 16), (.u8, 17), (.u8, 18), (.u8, 19), (.f32, 20), (.f32, 24),
      (.u8, 28), (.u8, 29)]
  | 6 => [(.u8, 0), (.u8, 1), (.u16, 2), (.u8, 4), (.f32, 5), (.f32, 9), (.u8, 13), (.u8, 14)]
  | _ => []

/-- plen(s), the length column of the schema table (44_payload_mux.md R180). -/
def plen : Nat → Nat
  | 0 => 26
  | 1 => 34
  | 2 => 28
  | 3 => 17
  | 4 => 44
  | 5 => 30
  | 6 => 15
  | _ => 0

/-- nf(s), the field count column of the schema table (44_payload_mux.md R180). -/
def nf : Nat → Nat
  | 0 => 10
  | 1 => 10
  | 2 => 10
  | 3 => 8
  | 4 => 14
  | 5 => 12
  | 6 => 8
  | _ => 0

/-- The width in bytes of each wire type (30_encoding.md R89). -/
def width : FieldType → Nat
  | .f32 => 4
  | .u8 => 1
  | .u16 => 2
  | .u32 => 4

/-- Field i of a schema fits its wire type: any pattern of a float, an integer below 2^(8*width) (44_payload_mux.md R182). -/
abbrev Fits (f : FieldType × Nat) (v : Word) : Prop := f.1 = .f32 ∨ v.toNat < 2 ^ (8 * width f.1)

/-- Every field the schema s reads fits (44_payload_mux.md R185). -/
abbrev AllFit (s : Nat) (field : Vector Word 14) : Prop := ∀ x ∈ (layout s).zip field.toList, Fits x.1 x.2

/-- enc_payload(s): each field's big-endian bytes at its width, in order (44_payload_mux.md R182, R185). -/
def payload (s : Nat) (field : Vector Word 14) : List Byte :=
  ((layout s).zip field.toList).flatMap fun x => beBytes (width x.1.1) x.2.toNat

/-- What dec_payload(s, p) puts in FIELD[i]: the number at the field's offset, or 0 beyond the schema's fields
(44_payload_mux.md R182, R186). -/
def fieldValue (s : Nat) (p : List Byte) (i : Nat) : Nat :=
  match (layout s)[i]? with
  | some f => beNat ((p.drop f.2).take (width f.1))
  | none => 0

/-- The six bytes of a primary header: 0x0800 OR a, 0xC000 OR q, d, each big-endian. The operands' bits lie apart from the
fixed ones, so OR is a sum (30_encoding.md R87, 43_primary_header.md R160). -/
def header (a q d : Nat) : List Byte := beBytes 2 (0x0800 + a) ++ beBytes 2 (0xC000 + q) ++ beBytes 2 d

/-- A whole packet of subsystem s: header, time, payload, and the checksum of them (30_encoding.md R86, 45_framer.md R210). -/
def packet (s q coarse fine : Nat) (p : List Byte) : List Byte :=
  let body := header (s + 1) q (plen s + 3) ++ beBytes 3 coarse ++ beBytes 1 fine ++ p
  body ++ beBytes 2 (crc16 body)

/-- The 16-bit big-endian number in the two bytes of b at index i. -/
def wordAt (b : List Byte) (i : Nat) : Nat := beNat ((b.drop i).take 2)

end Sys2Proof.Rule

namespace Sys2Proof.Machine

/-- The buffer bytes from offset base upwards are b. -/
abbrev Holds (s : State) (base : Nat) (b : List Byte) : Prop :=
  ∀ k, (h : k < b.length) → s.mem.read (base + k) = some b[k]

/-- IN[0:IN_LEN] is b, all of it written, and IN_LEN is in range (10_state.md R33). -/
abbrev InputIs (s : State) (b : List Byte) : Prop :=
  s.inLen.toNat = b.length ∧ b.length ≤ 256 ∧ Holds s inBase b

/-- OUT[0:OUT_LEN] is b, all of it written (10_state.md R36, R39). -/
abbrev OutputIs (s : State) (b : List Byte) : Prop := s.outLen.toNat = b.length ∧ Holds s outBase b

/-- From s to t the output b was written: OUT[0:OUT_LEN] is b, and every byte of memory outside it reads as before
(10_state.md R39). -/
abbrev Outputs (s t : State) (b : List Byte) : Prop :=
  OutputIs t b ∧ ∀ a, a < outBase ∨ outBase + b.length ≤ a → t.mem.read a = s.mem.read a

/-- The command ended with this error code: the next state is s with only STATUS changed (60_exceptions.md R242). -/
def stopsWith (code : BitVec 4) (s : State) : Out := .next { s with err := code, done := true }

/-- k steps, stopping at the first fault or refusal. -/
def steps : Nat → State → Out
  | 0, s => .next s
  | k + 1, s =>
    match step s with
    | .next t => steps k t
    | .fault r => .fault r
    | .refused r => .refused r

/-- Every command and every transaction keeps this, from any state that has it: the memory is canonical; OUT_LEN is 0..256 and
every output byte below it is written (10_state.md R36, R39); STATUS.ERR is a code the block produces, and 0 before the first
command (10_state.md R24, 30_encoding.md R90); PH_LENGTH is PH_DLEN + 1 once a header was decoded (10_state.md R35). -/
structure Inv (s : State) : Prop where
  memory : s.mem.wf = true
  outLen : s.outLen.toNat ≤ 256
  output : ∀ k, k < s.outLen.toNat → (s.mem.read (outBase + k)).isSome = true
  err : s.err.toNat ≤ 9
  fresh : s.done = false → s.err = 0
  header : s.phLength.toNat = s.phDlen.toNat + 1 ∨ (s.phLength = 0 ∧ s.phDlen = 0)

/-- Every byte of IN_BUF has been written, so no command can meet an unwritten byte (70_reset_and_hazards.md R271, R273). -/
def InputWritten (s : State) : Prop := ∀ k, k < 256 → (s.mem.read (inBase + k)).isSome = true

/-- The commands that write OUT_BUF and OUT_LEN (10_state.md R21, the column 'written by commands'). -/
def writesOutput : Instr → Bool
  | .crcAppend | .timeEncode | .phEncode | .plEncode | .pktAssemble => true
  | .crcInit | .crcFeed | .crcCompute | .crcVerify | .timeDecode | .dirApidFor | .dirSubsysFor | .dirCount | .phDecode
  | .plDecode | .pktParse => false

/-- The commands that write CRC_ACC (10_state.md R21). -/
def writesCrcAcc : Instr → Bool
  | .crcInit | .crcFeed => true
  | .crcCompute | .crcAppend | .crcVerify | .timeEncode | .timeDecode | .dirApidFor | .dirSubsysFor | .dirCount | .phEncode
  | .phDecode | .plEncode | .plDecode | .pktAssemble | .pktParse => false

/-- The commands that write TIME_COARSE and TIME_FINE (10_state.md R21). -/
def writesTime : Instr → Bool
  | .timeEncode | .timeDecode | .pktAssemble | .pktParse => true
  | .crcInit | .crcFeed | .crcCompute | .crcAppend | .crcVerify | .dirApidFor | .dirSubsysFor | .dirCount | .phEncode
  | .phDecode | .plEncode | .plDecode => false

/-- The commands that write the eight PH registers (10_state.md R21). -/
def writesHeader : Instr → Bool
  | .phDecode | .pktParse => true
  | .crcInit | .crcFeed | .crcCompute | .crcAppend | .crcVerify | .timeEncode | .timeDecode | .dirApidFor | .dirSubsysFor
  | .dirCount | .phEncode | .plEncode | .plDecode | .pktAssemble => false

/-- The commands that write CRC_RX (10_state.md R21). -/
def writesCrcRx : Instr → Bool
  | .crcVerify | .pktParse => true
  | .crcInit | .crcFeed | .crcCompute | .crcAppend | .timeEncode | .timeDecode | .dirApidFor | .dirSubsysFor | .dirCount
  | .phEncode | .phDecode | .plEncode | .plDecode | .pktAssemble => false

/-- The commands that write CRC_CALC (10_state.md R21). -/
def writesCrcCalc : Instr → Bool
  | .crcCompute | .crcAppend | .crcVerify | .pktAssemble | .pktParse => true
  | .crcInit | .crcFeed | .timeEncode | .timeDecode | .dirApidFor | .dirSubsysFor | .dirCount | .phEncode | .phDecode
  | .plEncode | .plDecode => false

/-- The commands that write FIELD (10_state.md R21). -/
def writesField : Instr → Bool
  | .plDecode | .pktParse => true
  | .crcInit | .crcFeed | .crcCompute | .crcAppend | .crcVerify | .timeEncode | .timeDecode | .dirApidFor | .dirSubsysFor
  | .dirCount | .phEncode | .phDecode | .plEncode | .pktAssemble => false

/-- The commands that take the mission time, from TIME_IN or from the time source (41_timecode.md R121). -/
def takesTime : Instr → Bool
  | .timeEncode | .pktAssemble => true
  | .crcInit | .crcFeed | .crcCompute | .crcAppend | .crcVerify | .timeDecode | .dirApidFor | .dirSubsysFor | .dirCount
  | .phEncode | .phDecode | .plEncode | .plDecode | .pktParse => false

/-- The error codes each command raises (60_exceptions.md R241). -/
def codesOf : Instr → List (BitVec 4)
  | .crcInit => []
  | .crcFeed => [8]
  | .crcCompute => [8]
  | .crcAppend => [8]
  | .crcVerify => [4, 6, 8]
  | .timeEncode => []
  | .timeDecode => [5, 8]
  | .dirApidFor => [1]
  | .dirSubsysFor => [2]
  | .dirCount => []
  | .phEncode => [8]
  | .phDecode => [4, 8]
  | .plEncode => [1, 8]
  | .plDecode => [1, 3, 8]
  | .pktAssemble => [1, 8]
  | .pktParse => [2, 3, 4, 6, 7, 8]

/-- IN_LEN agrees, and the input bytes below it (the operands 'IN_LEN, IN_BUF' of 30_encoding.md R81). -/
def SameInput (s t : State) : Prop :=
  s.inLen = t.inLen ∧ ∀ k, k < s.inLen.toNat → s.mem.read (inBase + k) = t.mem.read (inBase + k)

/-- The time operand agrees: TIME_SRC, and with it TIME_IN, or the answer the time source would give next:
the same index into the free values (30_encoding.md R81, 41_timecode.md R121; notes/assumptions/3.md). -/
def SameTime (s t : State) : Prop :=
  s.timeSrc = t.timeSrc ∧ (s.timeSrc = true → s.timeIn = t.timeIn) ∧ (s.timeSrc = false → s.samples = t.samples)

/-- The subsystem index agrees, and FIELD[0..nf-1] of its schema (44_payload_mux.md R187). -/
def SameFields (s t : State) : Prop :=
  s.argSubsys = t.argSubsys ∧ ∀ i, (h : i < 14) → i < Rule.nf s.argSubsys.toNat → s.field[i] = t.field[i]

/-- Two states agree on the operands a command reads (30_encoding.md R81, the column 'operands read', FIELD cut to the schema's fields). -/
def SameOperands : Instr → State → State → Prop
  | .crcInit, _, _ => True
  | .crcFeed, s, t => s.crcAcc = t.crcAcc ∧ SameInput s t
  | .crcCompute, s, t => SameInput s t
  | .crcAppend, s, t => SameInput s t
  | .crcVerify, s, t => SameInput s t
  | .timeEncode, s, t => SameTime s t
  | .timeDecode, s, t => SameInput s t
  | .dirApidFor, s, t => s.argSubsys = t.argSubsys
  | .dirSubsysFor, s, t => s.argApid = t.argApid
  | .dirCount, _, _ => True
  | .phEncode, s, t => s.argApid = t.argApid ∧ s.argSeq = t.argSeq ∧ s.argDlen = t.argDlen
  | .phDecode, s, t => SameInput s t
  | .plEncode, s, t => SameFields s t
  | .plDecode, s, t => s.argSubsys = t.argSubsys ∧ SameInput s t
  | .pktAssemble, s, t => SameFields s t ∧ s.argSeq = t.argSeq ∧ SameTime s t
  | .pktParse, s, t => SameInput s t ∧ s.crcChk = t.crcChk ∧ s.hdrChk = t.hdrChk

/-- On success two runs of a command wrote the same results: RESULT, and every register and output the command writes
(10_state.md R21). -/
structure SameResults (i : Instr) (s t : State) : Prop where
  result : s.result = t.result
  crcAcc : writesCrcAcc i = true → s.crcAcc = t.crcAcc
  time : writesTime i = true → s.timeCoarse = t.timeCoarse ∧ s.timeFine = t.timeFine
  header : writesHeader i = true → ∀ r ∈ [Reg.phVersion, .phType, .phShf, .phApid, .phSeqf, .phSeq, .phDlen, .phLength],
    readReg r s = readReg r t
  crcRx : writesCrcRx i = true → s.crcRx = t.crcRx
  crcCalc : writesCrcCalc i = true → s.crcCalc = t.crcCalc
  field : writesField i = true → s.field = t.field
  output : writesOutput i = true → ∃ b, OutputIs s b ∧ OutputIs t b

end Sys2Proof.Machine
end

