-- ==== Sys2Proof/Certificates/Slice0/Obligations.lean ====
section
/-! DEFINITION. The statements for the provers, in the order of OBLIGATIONS.json. Those about a command say its whole outcome
for every state: each error of its rule, and the next state of its own effect, which leaves every field not named as it
was. The values are computed by the rules of Safety.lean (Rule), on naturals. -/

open Sys2Proof
open Sys2Proof.Machine

/-! Encoding, and what a step runs. -/

/-- Each word selects exactly one command, and every other word none (30_encoding.md R80, R81, R84). -/
def Obligations.CommandWordsDecodeExactly : Prop :=
  ∀ (w : Word) (i : Instr), decodeWord w = .ok i ↔ w = encode i

/-- One word of each family, from the command map, and three illegal words (30_encoding.md R81, R84). -/
def Obligations.ListedWordsDecode : Prop :=
  decodeWord 0x00000005 = .ok .crcVerify ∧ decodeWord 0x00000011 = .ok .timeDecode ∧
  decodeWord 0x00000022 = .ok .dirCount ∧ decodeWord 0x00000030 = .ok .phEncode ∧
  decodeWord 0x00000041 = .ok .plDecode ∧ decodeTableWord 32 0x51 = some .pktParse ∧
  decodeWord 0x00000000 = .error .unknownFunction ∧ decodeWord 0x00000060 = .error .unknownFamily ∧
  decodeWord 0x00000101 = .error .zeroField

/-- A CMD write of a word that is no command writes STATUS and nothing else (60_exceptions.md R247). -/
def Obligations.IllegalWordRaisesIllegalCommand : Prop :=
  ∀ (s : State) (w : Word) (rest : List HostEvent),
    s.resetAsserted = false → s.events = .access (.write 0x004 4 w) :: rest → (∀ i, encode i ≠ w) →
    step s = stopsWith 9 { s with events := rest, response := some .done }

/-- A CMD write of a command's word runs that command on the state as it stands, the event taken off and the write
answered (10_state.md R23, 20_memory.md R67). -/
def Obligations.StepRunsTheDecodedCommand : Prop :=
  ∀ (s : State) (w : Word) (i : Instr) (rest : List HostEvent),
    s.resetAsserted = false → s.events = .access (.write 0x004 4 w) :: rest → decodeWord w = .ok i →
    step s = exec i { s with events := rest, response := some .done }

/-- The word placed by withFetchWord is what the very next step runs. Placing a CMD write as the next event and releasing the
reset input for it is the model's own device (log entry 2, a design choice), of which no rule speaks; that a CMD write runs its
command is 10_state.md R23. -/
def Obligations.PlacedWordRunsNext : Prop :=
  ∀ (s : State) (i : Instr),
    step (s.withFetchWord 32 (encode i).toNat) = exec i { s with resetAsserted := false, response := some .done }

/-- With nothing pending the block holds its state (60_exceptions.md R255; the model's step: log entry 2). -/
def Obligations.IdleBlockHoldsItsState : Prop :=
  ∀ s : State, s.events = [] → step s = .next s

/-! Reset and the invariant. -/

/-- Every register has its reset value as the host reads it, and no buffer byte is written (10_state.md R21,
70_reset_and_hazards.md R271). That State.reset has the reset input released is the model's choice (log entry 10), so that it
accepts a command at once, as 70_reset_and_hazards.md R270 says of the block after reset. -/
def Obligations.ResetGivesEveryRegisterItsValue : Prop :=
  (∀ r : Reg, readReg r State.reset = if r = .ctrl then 5 else if r = .crcAcc then 0xFFFF else 0) ∧
  (∀ a, State.reset.mem.read a = none) ∧ State.reset.resetAsserted = false

/-- Asserting the reset input puts the block, from any state, into its reset state with the input asserted, and releasing it
then leaves the reset state; the events still to come and the count of time samples are the model's own and outside the block
(70_reset_and_hazards.md R270, R271; log entries 3 and 10). -/
def Obligations.ResetInputRestoresTheResetState : Prop :=
  (∀ (s : State) (rest : List HostEvent), s.events = .assertReset :: rest →
    step s = .next { State.reset with resetAsserted := true, samples := s.samples, events := rest }) ∧
  ∀ (s : State) (rest : List HostEvent), s.events = .assertReset :: .releaseReset :: rest →
    steps 2 s = .next { State.reset with samples := s.samples, events := rest }

/-- While reset is asserted every host transaction is refused (70_reset_and_hazards.md R270). -/
def Obligations.TransactionsAreRefusedDuringReset : Prop :=
  ∀ (s : State) (a : BusAccess) (rest : List HostEvent),
    s.resetAsserted = true → s.events = .access a :: rest → step s = .refused .resetAsserted

/-- The invariant holds at reset. -/
def Obligations.InvariantHoldsAtReset : Prop := Inv State.reset

/-- Every step keeps the invariant, from any state that has it. -/
def Obligations.StepKeepsTheInvariant : Prop :=
  ∀ s t : State, Inv s → step s = .next t → Inv t

/-- The host can read every byte of the last output: it never meets an unwritten byte below OUT_LEN
(10_state.md R39, 20_memory.md R62). -/
def Obligations.OutputBytesCanBeRead : Prop :=
  ∀ (s : State) (k : Nat) (rest : List HostEvent),
    Inv s → s.resetAsserted = false → k < s.outLen.toNat → s.events = r8Out k :: rest →
    ∃ v, s.mem.read (outBase + k) = some v ∧
      step s = .next { s with events := rest, response := some (.byte v) }

/-! Bus accesses. -/

/-- A 32-bit read of a register returns its value, the bits it does not use 0, and changes nothing of the block; the value of
each register as a number; and the offset of each register, which r32 here and w32 in the next statement read and write at
(20_memory.md R61, 10_state.md R21 to R37). -/
def Obligations.RegisterReadsReturnTheirValue : Prop :=
  (∀ (s : State) (r : Reg) (rest : List HostEvent), s.resetAsserted = false → s.events = r32 r :: rest →
    step s = .next { s with events := rest, response := some (.word (readReg r s)) }) ∧
  (∀ (s : State) (r : Reg), (readReg r s).toNat =
    match r with
    | .ctrl => s.ctrl.toNat
    | .cmd => 0
    | .status => s.err.toNat + (if s.done then 256 else 0)
    | .result => s.result.toNat
    | .crcAcc => s.crcAcc.toNat
    | .argSubsys => s.argSubsys.toNat
    | .argApid => s.argApid.toNat
    | .argSeq => s.argSeq.toNat
    | .argDlen => s.argDlen.toNat
    | .timeIn => s.timeIn.toNat
    | .timeCoarse => s.timeCoarse.toNat
    | .timeFine => s.timeFine.toNat
    | .phVersion => s.phVersion.toNat
    | .phType => s.phType.toNat
    | .phShf => s.phShf.toNat
    | .phApid => s.phApid.toNat
    | .phSeqf => s.phSeqf.toNat
    | .phSeq => s.phSeq.toNat
    | .phDlen => s.phDlen.toNat
    | .phLength => s.phLength.toNat
    | .crcRx => s.crcRx.toNat
    | .crcCalc => s.crcCalc.toNat
    | .inLen => s.inLen.toNat
    | .outLen => s.outLen.toNat
    | .field i => s.field[i].toNat) ∧
  (∀ r : Reg, r32 r = .access (.read r.offset 4)) ∧ (∀ (r : Reg) (v : Word), w32 r v = .access (.write r.offset 4 v)) ∧
  ∀ r : Reg, r.offset =
    match r with
    | .ctrl => 0x000
    | .cmd => 0x004
    | .status => 0x008
    | .result => 0x00C
    | .crcAcc => 0x010
    | .argSubsys => 0x014
    | .argApid => 0x018
    | .argSeq => 0x01C
    | .argDlen => 0x020
    | .timeIn => 0x024
    | .timeCoarse => 0x028
    | .timeFine => 0x02C
    | .phVersion => 0x030
    | .phType => 0x034
    | .phShf => 0x038
    | .phApid => 0x03C
    | .phSeqf => 0x040
    | .phSeq => 0x044
    | .phDlen => 0x048
    | .phLength => 0x04C
    | .crcRx => 0x050
    | .crcCalc => 0x054
    | .inLen => 0x058
    | .outLen => 0x05C
    | .field i => 0x060 + 4 * i.val

/-- A 32-bit write to a register other than CMD is performed: an RW register reads back as the value written, CTRL as its low
three bits, an RO register as before, and no other register, no byte of memory and neither the reset input nor the count of
time samples is touched (20_memory.md R61, 10_state.md R21; log entries 3 and 10). -/
def Obligations.RegisterWritesStoreOnlyRwRegisters : Prop :=
  ∀ (s : State) (r : Reg) (v : Word) (rest : List HostEvent),
    s.resetAsserted = false → r ≠ .cmd → s.events = w32 r v :: rest →
    ∃ t, step s = .next t ∧
      readReg r t = (match r with
        | .ctrl => v &&& 7
        | .argSubsys | .argApid | .argSeq | .argDlen | .timeIn | .inLen | .field _ => v
        | _ => readReg r s) ∧
      (∀ r', r' ≠ r → readReg r' t = readReg r' s) ∧
      t.mem = s.mem ∧ t.resetAsserted = false ∧ t.samples = s.samples ∧ t.events = rest ∧ t.response = some .done

/-- Reserved words read 0 and ignore writes (10_state.md R21, 20_memory.md R61). -/
def Obligations.ReservedWordsReadZeroAndIgnoreWrites : Prop :=
  ∀ (s : State) (off : Nat) (v : Word) (rest : List HostEvent),
    s.resetAsserted = false → off % 4 = 0 → (0x098 ≤ off ∧ off < 0x100 ∨ 0x300 ≤ off ∧ off < 0x400) →
    (s.events = .access (.read off 4) :: rest →
      step s = .next { s with events := rest, response := some (.word 0) }) ∧
    (s.events = .access (.write off 4 v) :: rest →
      step s = .next { s with events := rest, response := some .done })

/-- An 8-bit write to IN[k] stores the byte there and nowhere else, IN_LEN included; one to OUT[k] is ignored
(20_memory.md R62, 70_reset_and_hazards.md R286). -/
def Obligations.ByteWritesReachOnlyInBuf : Prop :=
  ∀ (s : State) (k : Nat) (v : Byte) (rest : List HostEvent), s.resetAsserted = false → k < 256 →
    (s.events = w8In k v :: rest →
      ∃ t, step s = .next t ∧ t = { s with mem := t.mem, events := rest, response := some .done } ∧
        t.mem.read (inBase + k) = some v ∧ ∀ a, a ≠ inBase + k → t.mem.read a = s.mem.read a) ∧
    (s.events = .access (.write (outBase + k) 1 (v.setWidth 32)) :: rest →
      step s = .next { s with events := rest, response := some .done })

/-- An 8-bit read of a buffer byte returns it if it is written, and stops the model if it is not
(20_memory.md R62, 70_reset_and_hazards.md R271). -/
def Obligations.ByteReadsReturnWrittenBytes : Prop :=
  ∀ (s : State) (a : Nat) (rest : List HostEvent),
    s.resetAsserted = false → inBase ≤ a → a < bufEnd → s.events = .access (.read a 1) :: rest →
    (∀ v, s.mem.read a = some v → step s = .next { s with events := rest, response := some (.byte v) }) ∧
    (s.mem.read a = none → step s = .fault .unwrittenByte)

/-- Every access of a wrong width, at an unaligned word or outside the window faults, a CMD write among them
(20_memory.md R63, R64). -/
def Obligations.UnacceptedAccessesFault : Prop :=
  ∀ (s : State) (off n : Nat) (v : Word) (rest : List HostEvent), s.resetAsserted = false →
    ¬ (n = 4 ∧ off % 4 = 0 ∧ (off < 0x100 ∨ 0x300 ≤ off ∧ off < 0x400)) → ¬ (n = 1 ∧ 0x100 ≤ off ∧ off < 0x300) →
    (s.events = .access (.read off n) :: rest ∨ s.events = .access (.write off n v) :: rest) →
    step s = .fault .accessError

/-- A read that is answered changes nothing of the block (20_memory.md R68). -/
def Obligations.ReadsHaveNoSideEffect : Prop :=
  ∀ (s t : State) (off n : Nat) (rest : List HostEvent),
    s.events = .access (.read off n) :: rest → step s = .next t →
    t = { s with events := rest, response := t.response }

/-- The transactions of LOADIN, performed one by one, leave IN[0:n] the bytes given and IN_LEN = n, every other byte of memory
as it was and every other register as it was (30_encoding.md R92, 20_memory.md R62). -/
def Obligations.LoadInFillsTheInputBuffer : Prop :=
  ∀ (s : State) (b : List Byte) (rest : List HostEvent),
    s.resetAsserted = false → b.length ≤ 256 → s.events = loadIn b ++ rest →
    ∃ t, steps (b.length + 1) s = .next t ∧ InputIs t b ∧
      (∀ a, a < inBase ∨ inBase + b.length ≤ a → t.mem.read a = s.mem.read a) ∧
      t = { s with mem := t.mem, inLen := t.inLen, events := rest, response := some .done }

/-- COPYOUT, performed one transaction at a time, leaves the last output as the input, and OUT_BUF as it was
(30_encoding.md R92, 20_memory.md R77). -/
def Obligations.CopyOutMakesTheOutputTheInput : Prop :=
  ∀ (s : State) (b : List Byte) (rest : List HostEvent),
    s.resetAsserted = false → b.length ≤ 256 → OutputIs s b → s.events = copyOut s ++ rest →
    ∃ t, steps (2 * b.length + 2) s = .next t ∧ InputIs t b ∧ OutputIs t b ∧
      (∀ a, a < inBase ∨ inBase + b.length ≤ a → t.mem.read a = s.mem.read a) ∧
      t = { s with mem := t.mem, inLen := t.inLen, events := rest, response := some .done }

/-! The checksum engine. -/

/-- The machine's checksum is the rule's, bit by bit on naturals (40_checksum.md R100). -/
def Obligations.ChecksumFollowsItsRule : Prop :=
  (∀ (c : Half) (b : List Byte), (crcUpdate c b).toNat = Rule.crcUpdate c.toNat b) ∧
  ∀ b : List Byte, (crc16 b).toNat = Rule.crc16 b

/-- Streaming, the empty input, and the zero residue of a checked sequence: the laws of 40_checksum.md R106, which the spec marks
as derived from R100. -/
def Obligations.ChecksumStreamsAndLeavesNoResidue : Prop :=
  (∀ (c : Half) (a b : List Byte), crcUpdate (crcUpdate c a) b = crcUpdate c (a ++ b)) ∧
  (∀ c : Half, crcUpdate c [] = c) ∧ crc16 [] = 0xFFFF ∧
  ∀ b : List Byte, crc16 (b ++ be16 (crc16 b)) = 0

/-- CRC_INIT (40_checksum.md R101). -/
def Obligations.CrcInitSetsTheAccumulator : Prop :=
  encode .crcInit = 0x00000001 ∧ ∀ s : State, exec .crcInit s = .next { s with crcAcc := 0xFFFF, result := 0xFFFF, err := 0, done := true }

/-- CRC_FEED (40_checksum.md R102). -/
def Obligations.CrcFeedFoldsTheInput : Prop :=
  encode .crcFeed = 0x00000002 ∧ ∀ s : State,
    (256 < s.inLen.toNat → exec .crcFeed s = stopsWith 8 s) ∧
    ∀ b, InputIs s b →
      exec .crcFeed s = .next
        { s with crcAcc := BitVec.ofNat 16 (Rule.crcUpdate s.crcAcc.toNat b)
                 result := BitVec.ofNat 32 (Rule.crcUpdate s.crcAcc.toNat b)
                 err := 0, done := true }

/-- CRC_COMPUTE (40_checksum.md R103). -/
def Obligations.CrcComputeChecksTheInput : Prop :=
  encode .crcCompute = 0x00000003 ∧ ∀ s : State,
    (256 < s.inLen.toNat → exec .crcCompute s = stopsWith 8 s) ∧
    ∀ b, InputIs s b →
      exec .crcCompute s = .next
        { s with crcCalc := BitVec.ofNat 16 (Rule.crc16 b), result := BitVec.ofNat 32 (Rule.crc16 b)
                 err := 0, done := true }

/-- CRC_APPEND (40_checksum.md R104). -/
def Obligations.CrcAppendWritesInputAndChecksum : Prop :=
  encode .crcAppend = 0x00000004 ∧ ∀ s : State,
    (254 < s.inLen.toNat → exec .crcAppend s = stopsWith 8 s) ∧
    ∀ b, InputIs s b → b.length ≤ 254 →
      ∃ t, exec .crcAppend s = .next t ∧ Outputs s t (b ++ Rule.beBytes 2 (Rule.crc16 b)) ∧
        t = { s with mem := t.mem, outLen := t.outLen
                     crcCalc := BitVec.ofNat 16 (Rule.crc16 b), result := BitVec.ofNat 32 (Rule.crc16 b)
                     err := 0, done := true }

/-- CRC_VERIFY (40_checksum.md R105). -/
def Obligations.CrcVerifyComparesTheTrailer : Prop :=
  encode .crcVerify = 0x00000005 ∧ ∀ s : State,
    (256 < s.inLen.toNat → exec .crcVerify s = stopsWith 8 s) ∧
    (s.inLen.toNat < 2 → exec .crcVerify s = stopsWith 4 s) ∧
    ∀ b, InputIs s b → 2 ≤ b.length →
      (Rule.wordAt b (b.length - 2) ≠ Rule.crc16 (b.take (b.length - 2)) → exec .crcVerify s = stopsWith 6 s) ∧
      (Rule.wordAt b (b.length - 2) = Rule.crc16 (b.take (b.length - 2)) →
        exec .crcVerify s = .next
          { s with crcRx := BitVec.ofNat 16 (Rule.wordAt b (b.length - 2))
                   crcCalc := BitVec.ofNat 16 (Rule.crc16 (b.take (b.length - 2)))
                   result := BitVec.ofNat 32 (Rule.crc16 (b.take (b.length - 2)))
                   err := 0, done := true })

/-- CRC_VERIFY "succeeds exactly when `crc16(IN[0:n]) = 0`", which the spec marks as derived from R100 (40_checksum.md R105). -/
def Obligations.VerifySucceedsExactlyOnZeroResidue : Prop :=
  ∀ (s : State) (b : List Byte), InputIs s b → 2 ≤ b.length →
    ∃ t, exec .crcVerify s = .next t ∧ (t.err = 0 ↔ Rule.crc16 b = 0)

/-- CRC_INIT, then LOADIN and CRC_FEED for each piece of a sequence of any length, run one transaction at a time, leave the
checksum of the whole sequence in CRC_ACC (40_checksum.md R102, R106). -/
def Obligations.StreamedPiecesGiveTheWholeChecksum : Prop :=
  ∀ (s : State) (pieces : List (List Byte)) (rest : List HostEvent),
    s.resetAsserted = false → (∀ b ∈ pieces, b.length ≤ 256) →
    s.events = cmdEvent .crcInit :: pieces.flatMap (fun b => loadIn b ++ [cmdEvent .crcFeed]) ++ rest →
    ∃ t, steps (1 + (pieces.map fun b => b.length + 2).sum) s = .next t ∧
      t.crcAcc.toNat = Rule.crc16 pieces.flatten ∧ t.result.toNat = Rule.crc16 pieces.flatten ∧
      t.err = 0 ∧ t.events = rest

/-! The time code. -/

/-- TIME_ENCODE: the time from TIME_IN, or one sample of the time source with its seconds taken modulo 2^24
(41_timecode.md R121, R122; the sample is a free value: log entry 3). -/
def Obligations.TimeEncodeWritesTheTimeCode : Prop :=
  encode .timeEncode = 0x00000010 ∧ ∀ s : State, ∃ (t : State) (coarse fine : Nat), exec .timeEncode s = .next t ∧
    (s.ctrl.getLsbD 1 = true → coarse = s.timeIn.toNat / 256 ∧ fine = s.timeIn.toNat % 256) ∧
    (s.ctrl.getLsbD 1 = false →
      coarse = (Config.timeSource s.samples).1 % 2 ^ 24 ∧ fine = (Config.timeSource s.samples).2.toNat) ∧
    Outputs s t (Rule.beBytes 3 coarse ++ Rule.beBytes 1 fine) ∧
    t = { s with mem := t.mem, outLen := t.outLen
                 timeCoarse := BitVec.ofNat 24 coarse, timeFine := BitVec.ofNat 8 fine
                 result := BitVec.ofNat 32 (coarse * 256 + fine)
                 samples := if s.ctrl.getLsbD 1 then s.samples else s.samples + 1
                 err := 0, done := true }

/-- TIME_DECODE (41_timecode.md R123). -/
def Obligations.TimeDecodeReadsTheTimeCode : Prop :=
  encode .timeDecode = 0x00000011 ∧ ∀ s : State,
    (256 < s.inLen.toNat → exec .timeDecode s = stopsWith 8 s) ∧
    (s.inLen.toNat ≤ 256 → s.inLen.toNat ≠ 4 → exec .timeDecode s = stopsWith 5 s) ∧
    ∀ b, InputIs s b → b.length = 4 →
      exec .timeDecode s = .next
        { s with timeCoarse := BitVec.ofNat 24 (Rule.beNat (b.take 3)), timeFine := BitVec.ofNat 8 (Rule.beNat (b.drop 3))
                 result := BitVec.ofNat 32 (Rule.beNat b), err := 0, done := true }

/-- "Then TIME_DECODE gives back the same coarse and fine", whatever the sample was: the law of 41_timecode.md R124, which the
spec marks as derived from R121 to R123. -/
def Obligations.TimeDecodeInvertsTimeEncode : Prop :=
  ∀ (s t u : State) (b : List Byte), exec .timeEncode s = .next t → OutputIs t b → InputIs u b →
    ∃ v, exec .timeDecode u = .next v ∧ v.err = 0 ∧ v.timeCoarse = t.timeCoarse ∧ v.timeFine = t.timeFine ∧
      v.timeCoarse.toNat < 2 ^ 24 ∧ v.timeFine.toNat < 256

/-! The directory. -/

/-- DIR_APID_FOR (42_directory.md R142). -/
def Obligations.DirApidForLooksUpTheIndex : Prop :=
  encode .dirApidFor = 0x00000020 ∧ ∀ s : State,
    (6 < s.argSubsys.toNat → exec .dirApidFor s = stopsWith 1 s) ∧
    (s.argSubsys.toNat ≤ 6 → exec .dirApidFor s = .next { s with result := s.argSubsys + 1, err := 0, done := true })

/-- DIR_SUBSYS_FOR (42_directory.md R143). -/
def Obligations.DirSubsysForLooksUpTheApid : Prop :=
  encode .dirSubsysFor = 0x00000021 ∧ ∀ s : State,
    (s.argApid.toNat < 1 ∨ 7 < s.argApid.toNat → exec .dirSubsysFor s = stopsWith 2 s) ∧
    (1 ≤ s.argApid.toNat → s.argApid.toNat ≤ 7 →
      exec .dirSubsysFor s = .next { s with result := s.argApid - 1, err := 0, done := true })

/-- DIR_COUNT (42_directory.md R144). -/
def Obligations.DirCountIsSeven : Prop :=
  encode .dirCount = 0x00000022 ∧ ∀ s : State, exec .dirCount s = .next { s with result := 7, err := 0, done := true }

/-- The indices 0..6 name the subsystems, one each, and no other index names one; the directory is a bijection of the indices
0..6 and the APIDs 1..7; and DIR_APID_FOR followed by DIR_SUBSYS_FOR with
RESULT copied to ARG_APID gives back the index: the laws of 42_directory.md R145, which the spec marks as derived from R140. -/
def Obligations.DirectoryLookupsInvertEachOther : Prop :=
  (∀ y : Subsystem, subsysOf (apidMap y).toNat = some y ∧ apidMap y ≠ 0 ∧ (apidMap y).toNat = subsystemIndex y + 1 ∧
    subsystemIndex y ≤ 6 ∧ subsystemOfIndex (subsystemIndex y) = some y) ∧
  (∀ n, n ≤ 6 → ∃ y, subsystemOfIndex n = some y ∧ subsystemIndex y = n) ∧
  (∀ n, 6 < n → subsystemOfIndex n = none) ∧
  (∀ a, 1 ≤ a → a ≤ 7 → ∃ y, subsysOf a = some y ∧ (apidMap y).toNat = a) ∧
  (∀ a, a < 1 ∨ 7 < a → subsysOf a = none) ∧
  ∀ s t u : State, exec .dirApidFor s = .next t → t.err = 0 → u.argApid = t.result →
    ∃ v, exec .dirSubsysFor u = .next v ∧ v.err = 0 ∧ v.result = s.argSubsys

/-! The primary header codec. -/

/-- PH_ENCODE (43_primary_header.md R160). -/
def Obligations.PhEncodePacksTheHeader : Prop :=
  encode .phEncode = 0x00000030 ∧ ∀ s : State,
    (0x7FF < s.argApid.toNat ∨ 0x3FFF < s.argSeq.toNat ∨ 0xFFFF < s.argDlen.toNat →
      exec .phEncode s = stopsWith 8 s) ∧
    (s.argApid.toNat ≤ 0x7FF → s.argSeq.toNat ≤ 0x3FFF → s.argDlen.toNat ≤ 0xFFFF →
      ∃ t, exec .phEncode s = .next t ∧
        Outputs s t (Rule.header s.argApid.toNat s.argSeq.toNat s.argDlen.toNat) ∧
        t = { s with mem := t.mem, outLen := t.outLen, result := 6, err := 0, done := true })

/-- PH_DECODE: it consumes the first six bytes only (43_primary_header.md R161, R162; log entry 5). -/
def Obligations.PhDecodeUnpacksTheHeader : Prop :=
  encode .phDecode = 0x00000031 ∧ ∀ s : State,
    (256 < s.inLen.toNat → exec .phDecode s = stopsWith 8 s) ∧
    (s.inLen.toNat < 6 → exec .phDecode s = stopsWith 4 s) ∧
    ∀ h : List Byte, h.length = 6 → 6 ≤ s.inLen.toNat → s.inLen.toNat ≤ 256 → Holds s inBase h →
      (s.inLen.toNat < Rule.wordAt h 4 + 9 → exec .phDecode s = stopsWith 4 s) ∧
      (Rule.wordAt h 4 + 9 ≤ s.inLen.toNat →
        exec .phDecode s = .next
          { s with phVersion := BitVec.ofNat 3 (Rule.wordAt h 0 / 8192)
                   phType := BitVec.ofNat 1 (Rule.wordAt h 0 / 4096 % 2)
                   phShf := BitVec.ofNat 1 (Rule.wordAt h 0 / 2048 % 2)
                   phApid := BitVec.ofNat 11 (Rule.wordAt h 0 % 2048)
                   phSeqf := BitVec.ofNat 2 (Rule.wordAt h 2 / 16384)
                   phSeq := BitVec.ofNat 14 (Rule.wordAt h 2 % 16384)
                   phDlen := BitVec.ofNat 16 (Rule.wordAt h 4)
                   phLength := BitVec.ofNat 17 (Rule.wordAt h 4 + 1)
                   result := BitVec.ofNat 32 (Rule.wordAt h 4 + 9)
                   err := 0, done := true })

/-- Decoding an encoded header, with enough bytes after it, gives its operands and the fixed fields back: the law of
43_primary_header.md R163, which the spec marks as derived from R160 to R162. -/
def Obligations.PhDecodeInvertsPhEncode : Prop :=
  ∀ (s t u : State) (h x : List Byte), s.argApid.toNat ≤ 0x7FF → s.argSeq.toNat ≤ 0x3FFF → s.argDlen.toNat ≤ 0xFFFF →
    exec .phEncode s = .next t → OutputIs t h → s.argDlen.toNat + 3 ≤ x.length → InputIs u (h ++ x) →
    ∃ v, exec .phDecode u = .next v ∧ v.err = 0 ∧
      v.phApid.toNat = s.argApid.toNat ∧ v.phSeq.toNat = s.argSeq.toNat ∧ v.phDlen.toNat = s.argDlen.toNat ∧
      v.phVersion = 0 ∧ v.phType = 0 ∧ v.phShf = 1 ∧ v.phSeqf = 3

/-! The payload multiplexer. -/

/-- The schema table: each payload length and field count, and each field's offset the sum of the widths before it
(44_payload_mux.md R180, R181). -/
def Obligations.SchemaTableMatchesItsRows : Prop :=
  ∀ y : Subsystem,
    (schema y = (Rule.layout (subsystemIndex y)).map Prod.fst) ∧
    plen y = Rule.plen (subsystemIndex y) ∧ nf y = Rule.nf (subsystemIndex y) ∧ nf y ≤ 14 ∧
    ∀ i, (h : i < (Rule.layout (subsystemIndex y)).length) →
      ((Rule.layout (subsystemIndex y))[i]).2 = (((schema y).take i).map fieldWidth).sum

/-- PL_ENCODE (44_payload_mux.md R185, R187). -/
def Obligations.PlEncodeWritesThePayload : Prop :=
  encode .plEncode = 0x00000040 ∧ ∀ s : State,
    (6 < s.argSubsys.toNat → exec .plEncode s = stopsWith 1 s) ∧
    (s.argSubsys.toNat ≤ 6 → ¬ Rule.AllFit s.argSubsys.toNat s.field → exec .plEncode s = stopsWith 8 s) ∧
    (s.argSubsys.toNat ≤ 6 → Rule.AllFit s.argSubsys.toNat s.field →
      ∃ t, exec .plEncode s = .next t ∧ Outputs s t (Rule.payload s.argSubsys.toNat s.field) ∧
        (Rule.payload s.argSubsys.toNat s.field).length = Rule.plen s.argSubsys.toNat ∧
        t = { s with mem := t.mem, outLen := t.outLen, result := BitVec.ofNat 32 (Rule.plen s.argSubsys.toNat)
                     err := 0, done := true })

/-- PL_DECODE (44_payload_mux.md R186, R188). -/
def Obligations.PlDecodeFillsTheFields : Prop :=
  encode .plDecode = 0x00000041 ∧ ∀ s : State,
    (256 < s.inLen.toNat → exec .plDecode s = stopsWith 8 s) ∧
    (s.inLen.toNat ≤ 256 → 6 < s.argSubsys.toNat → exec .plDecode s = stopsWith 1 s) ∧
    (s.inLen.toNat ≤ 256 → s.argSubsys.toNat ≤ 6 → s.inLen.toNat ≠ Rule.plen s.argSubsys.toNat →
      exec .plDecode s = stopsWith 3 s) ∧
    ∀ p, InputIs s p → s.argSubsys.toNat ≤ 6 → p.length = Rule.plen s.argSubsys.toNat →
      exec .plDecode s = .next
        { s with field := Vector.ofFn fun i => BitVec.ofNat 32 (Rule.fieldValue s.argSubsys.toNat p i.val)
                 result := BitVec.ofNat 32 (Rule.nf s.argSubsys.toNat), err := 0, done := true }

/-- Decoding an encoded payload gives the schema's fields back and zero beyond them, floats bit-exact; and encoding a decoded
payload gives its bytes back: the laws of 44_payload_mux.md R189, which the spec marks as derived from R182 to R188. -/
def Obligations.PayloadCodecsInvertEachOther : Prop :=
  (∀ (s t u : State) (p : List Byte), exec .plEncode s = .next t → t.err = 0 → OutputIs t p → InputIs u p →
    u.argSubsys = s.argSubsys →
    ∃ v, exec .plDecode u = .next v ∧ v.err = 0 ∧
      ∀ i, (h : i < 14) → v.field[i] = if i < Rule.nf s.argSubsys.toNat then s.field[i] else 0) ∧
  ∀ (s t u : State) (p : List Byte), InputIs s p → exec .plDecode s = .next t → t.err = 0 →
    u.argSubsys = s.argSubsys → u.field = t.field →
    ∃ v, exec .plEncode u = .next v ∧ v.err = 0 ∧ OutputIs v p

/-! The packet framer. -/

/-- PKT_ASSEMBLE: every error of its rule, and the packet it writes with the time from TIME_IN or from one sample of the time
source (45_framer.md R210, 41_timecode.md R121; the sample is a free value: log entry 3). -/
def Obligations.PktAssembleWritesThePacket : Prop :=
  encode .pktAssemble = 0x00000050 ∧ ∀ s : State,
    (6 < s.argSubsys.toNat → exec .pktAssemble s = stopsWith 1 s) ∧
    (s.argSubsys.toNat ≤ 6 → 0x3FFF < s.argSeq.toNat ∨ ¬ Rule.AllFit s.argSubsys.toNat s.field →
      exec .pktAssemble s = stopsWith 8 s) ∧
    (s.argSubsys.toNat ≤ 6 → s.argSeq.toNat ≤ 0x3FFF → Rule.AllFit s.argSubsys.toNat s.field →
      ∃ (t : State) (coarse fine : Nat) (b : List Byte), exec .pktAssemble s = .next t ∧
        (s.ctrl.getLsbD 1 = true → coarse = s.timeIn.toNat / 256 ∧ fine = s.timeIn.toNat % 256) ∧
        (s.ctrl.getLsbD 1 = false →
          coarse = (Config.timeSource s.samples).1 % 2 ^ 24 ∧ fine = (Config.timeSource s.samples).2.toNat) ∧
        b = Rule.packet s.argSubsys.toNat s.argSeq.toNat coarse fine (Rule.payload s.argSubsys.toNat s.field) ∧
        b.length = 12 + Rule.plen s.argSubsys.toNat ∧ Outputs s t b ∧
        t = { s with mem := t.mem, outLen := t.outLen
                     timeCoarse := BitVec.ofNat 24 coarse, timeFine := BitVec.ofNat 8 fine
                     crcCalc := BitVec.ofNat 16 (Rule.crc16 (b.take (b.length - 2)))
                     result := BitVec.ofNat 32 (12 + Rule.plen s.argSubsys.toNat)
                     samples := if s.ctrl.getLsbD 1 then s.samples else s.samples + 1
                     err := 0, done := true })

/-- PKT_PARSE: RangeError and a missing header on any input; the errors of steps 3 to 7 in their order on an input of which only
the six header bytes need be written (the bytes it consumes: log entry 5); and on an input of at most 256 written bytes, the
errors of steps 2 to 8 in their order and on success every register it writes (45_framer.md R211). -/
def Obligations.PktParseChecksInOrderAndDecodes : Prop :=
  encode .pktParse = 0x00000051 ∧ ∀ s : State,
    (256 < s.inLen.toNat → exec .pktParse s = stopsWith 8 s) ∧
    (s.inLen.toNat < 6 → exec .pktParse s = stopsWith 4 s) ∧
    (∀ (h : List Byte) (code : BitVec 4), h.length = 6 → 6 ≤ s.inLen.toNat → s.inLen.toNat ≤ 256 → Holds s inBase h →
      let n := s.inLen.toNat
      let w1 := Rule.wordAt h 0
      let w2 := Rule.wordAt h 2
      let w3 := Rule.wordAt h 4
      let a := w1 % 2048
      (if s.ctrl.getLsbD 2 = true ∧
            ¬ (w1 / 8192 = 0 ∧ w1 / 4096 % 2 = 0 ∧ w1 / 2048 % 2 = 1 ∧ w2 / 16384 = 3) then some 7
        else if a < 1 ∨ 7 < a then some 2
        else if n < w3 + 9 then some 4
        else if w3 + 1 ≠ 4 + Rule.plen (a - 1) then some 3
        else if n ≠ w3 + 9 then some 3
        else none) = some code →
      exec .pktParse s = stopsWith code s) ∧
    ∀ b, InputIs s b →
      let n := b.length
      let w1 := Rule.wordAt b 0
      let w2 := Rule.wordAt b 2
      let w3 := Rule.wordAt b 4
      let a := w1 % 2048
      let own := Rule.crc16 (b.take (n - 2))
      let rx := Rule.wordAt b (n - 2)
      exec .pktParse s =
        if n < 6 then stopsWith 4 s
        else if s.ctrl.getLsbD 2 = true ∧
            ¬ (w1 / 8192 = 0 ∧ w1 / 4096 % 2 = 0 ∧ w1 / 2048 % 2 = 1 ∧ w2 / 16384 = 3) then stopsWith 7 s
        else if a < 1 ∨ 7 < a then stopsWith 2 s
        else if n < w3 + 9 then stopsWith 4 s
        else if w3 + 1 ≠ 4 + Rule.plen (a - 1) then stopsWith 3 s
        else if n ≠ w3 + 9 then stopsWith 3 s
        else if s.ctrl.getLsbD 0 = true ∧ rx ≠ own then stopsWith 6 s
        else .next
          { s with phVersion := BitVec.ofNat 3 (w1 / 8192)
                   phType := BitVec.ofNat 1 (w1 / 4096 % 2)
                   phShf := BitVec.ofNat 1 (w1 / 2048 % 2)
                   phApid := BitVec.ofNat 11 a
                   phSeqf := BitVec.ofNat 2 (w2 / 16384)
                   phSeq := BitVec.ofNat 14 (w2 % 16384)
                   phDlen := BitVec.ofNat 16 w3
                   phLength := BitVec.ofNat 17 (w3 + 1)
                   timeCoarse := BitVec.ofNat 24 (Rule.beNat ((b.drop 6).take 3))
                   timeFine := BitVec.ofNat 8 (Rule.beNat ((b.drop 9).take 1))
                   field := Vector.ofFn fun i =>
                     BitVec.ofNat 32 (Rule.fieldValue (a - 1) ((b.drop 10).take (Rule.plen (a - 1))) i.val)
                   crcRx := BitVec.ofNat 16 rx
                   crcCalc := BitVec.ofNat 16 own
                   result := BitVec.ofNat 32 (a - 1)
                   err := 0, done := true }

/-- PKT_PARSE completes, with RESULT its subsystem index, on every packet of the wire layout, whatever CTRL is
(45_framer.md R211, 30_encoding.md R86). -/
def Obligations.PktParseAcceptsEveryPacket : Prop :=
  ∀ (s : State) (y q coarse fine : Nat) (p : List Byte),
    y ≤ 6 → q ≤ 0x3FFF → coarse < 2 ^ 24 → fine < 256 → p.length = Rule.plen y →
    InputIs s (Rule.packet y q coarse fine p) →
    exec .pktParse s = .next
      { s with phVersion := 0, phType := 0, phShf := 1, phApid := BitVec.ofNat 11 (y + 1)
               phSeqf := 3, phSeq := BitVec.ofNat 14 q
               phDlen := BitVec.ofNat 16 (Rule.plen y + 3), phLength := BitVec.ofNat 17 (Rule.plen y + 4)
               timeCoarse := BitVec.ofNat 24 coarse, timeFine := BitVec.ofNat 8 fine
               field := Vector.ofFn fun i => BitVec.ofNat 32 (Rule.fieldValue y p i.val)
               crcRx := BitVec.ofNat 16 (Rule.crc16 ((Rule.packet y q coarse fine p).take (10 + Rule.plen y)))
               crcCalc := BitVec.ofNat 16 (Rule.crc16 ((Rule.packet y q coarse fine p).take (10 + Rule.plen y)))
               result := BitVec.ofNat 32 y, err := 0, done := true }

/-- What both ends of the framer hold to: every packet PKT_ASSEMBLE writes, and every packet PKT_PARSE accepts, has the
schema's length, data length field and the directory's APID; and its checksum is 0, for parse with CRC_CHK = 1:
the facts of 45_framer.md R212, which the spec marks as derived from R210 and R211. -/
def Obligations.PacketsKeepTheirInvariants : Prop :=
  (∀ (s t : State) (b : List Byte), exec .pktAssemble s = .next t → t.err = 0 → OutputIs t b →
    b.length = 6 + 4 + Rule.plen s.argSubsys.toNat + 2 ∧
    Rule.wordAt b 4 = 4 + Rule.plen s.argSubsys.toNat - 1 ∧
    Rule.wordAt b 0 % 2048 = s.argSubsys.toNat + 1 ∧ Rule.crc16 b = 0) ∧
  ∀ (s t : State) (b : List Byte), exec .pktParse s = .next t → t.err = 0 → InputIs s b →
    b.length = 6 + 4 + Rule.plen t.result.toNat + 2 ∧
    Rule.wordAt b 4 = 4 + Rule.plen t.result.toNat - 1 ∧
    Rule.wordAt b 0 % 2048 = t.result.toNat + 1 ∧ (s.ctrl.getLsbD 0 = true → Rule.crc16 b = 0)

/-- Parsing an assembled packet, with any CTRL setting, gives back everything that went into it: the first law of 45_framer.md
R213, which the spec marks as derived. -/
def Obligations.ParseInvertsAssemble : Prop :=
  ∀ (s t u : State) (b : List Byte), exec .pktAssemble s = .next t → t.err = 0 → OutputIs t b → InputIs u b →
    ∃ v, exec .pktParse u = .next v ∧ v.err = 0 ∧ v.result = s.argSubsys ∧
      v.phApid.toNat = s.argSubsys.toNat + 1 ∧ v.phSeq.toNat = s.argSeq.toNat ∧
      v.phDlen.toNat = Rule.plen s.argSubsys.toNat + 3 ∧
      v.timeCoarse = t.timeCoarse ∧ v.timeFine = t.timeFine ∧
      (∀ i, (h : i < 14) → v.field[i] = if i < Rule.nf s.argSubsys.toNat then s.field[i] else 0) ∧
      v.crcRx = v.crcCalc

/-- Assembling what a fully checked parse gave writes the parsed packet again, so the accepted packets are exactly the
assembled ones: the second law of 45_framer.md R213, which the spec marks as derived. -/
def Obligations.AssembleInvertsParse : Prop :=
  ∀ (s t u : State) (b : List Byte), InputIs s b → s.ctrl.getLsbD 2 = true → s.ctrl.getLsbD 0 = true →
    exec .pktParse s = .next t → t.err = 0 →
    u.argSubsys = t.result → u.argSeq.toNat = t.phSeq.toNat → u.ctrl.getLsbD 1 = true →
    u.timeIn.toNat = t.timeCoarse.toNat * 256 + t.timeFine.toNat → u.field = t.field →
    ∃ v, exec .pktAssemble u = .next v ∧ v.err = 0 ∧ OutputIs v b

/-! What holds of all commands. -/

/-- Every command ends by setting STATUS.DONE; one that raises an error changes nothing but STATUS, and raises one of the
codes its rule lists (10_state.md R24, 60_exceptions.md R241, R242, R243). -/
def Obligations.FailingCommandsChangeOnlyStatus : Prop :=
  ∀ (i : Instr) (s t : State), exec i s = .next t →
    t.done = true ∧ (t.err ≠ 0 → t.err ∈ codesOf i ∧ t = { s with err := t.err, done := true })

/-- No command stops on an input buffer that is written: each answers a next state in every such state
(60_exceptions.md R241, 70_reset_and_hazards.md R273). -/
def Obligations.CommandsCompleteOnWrittenInput : Prop :=
  ∀ (i : Instr) (s : State), InputWritten s → ∃ t, exec i s = .next t

/-- The only stop of a command is an unwritten input byte (70_reset_and_hazards.md R271). -/
def Obligations.CommandsStopOnlyOnUnwrittenInput : Prop :=
  ∀ (i : Instr) (s : State), (∃ t, exec i s = .next t) ∨
    (exec i s = .fault .unwrittenByte ∧ ∃ k, k < s.inLen.toNat ∧ k < 256 ∧ s.mem.read (inBase + k) = none)

/-- No command writes CTRL, the ARG registers, TIME_IN, IN_LEN or IN_BUF, or touches the reset input (10_state.md R22, R28 to
R33, R38; 70_reset_and_hazards.md R270). Of the fields that are the model's own and outside the block, the pending events and the
bus answer stay as they were (log entries 1 and 10), and the count of time samples too, but for a command that takes the time,
which advances it by one at the most (41_timecode.md R121; log entry 3). -/
def Obligations.CommandsLeaveHostRegistersAlone : Prop :=
  ∀ (i : Instr) (s t : State), exec i s = .next t →
    t.ctrl = s.ctrl ∧ t.argSubsys = s.argSubsys ∧ t.argApid = s.argApid ∧ t.argSeq = s.argSeq ∧ t.argDlen = s.argDlen ∧
    t.timeIn = s.timeIn ∧ t.inLen = s.inLen ∧ (∀ a, a < outBase → t.mem.read a = s.mem.read a) ∧
    t.resetAsserted = s.resetAsserted ∧ t.events = s.events ∧ t.response = s.response ∧
    (takesTime i = false → t.samples = s.samples) ∧ (t.samples = s.samples ∨ t.samples = s.samples + 1)

/-- A result register, OUT_LEN and the output bytes change only under a command the register map lists as writing them, and an
output-producing command leaves the bytes at and beyond OUT_LEN as they were (10_state.md R21, R39). -/
def Obligations.OnlyListedCommandsWrite : Prop :=
  ∀ (i : Instr) (s t : State), exec i s = .next t →
    (writesCrcAcc i = false → t.crcAcc = s.crcAcc) ∧
    (writesTime i = false → t.timeCoarse = s.timeCoarse ∧ t.timeFine = s.timeFine) ∧
    (writesHeader i = false →
      t.phVersion = s.phVersion ∧ t.phType = s.phType ∧ t.phShf = s.phShf ∧ t.phApid = s.phApid ∧
      t.phSeqf = s.phSeqf ∧ t.phSeq = s.phSeq ∧ t.phDlen = s.phDlen ∧ t.phLength = s.phLength) ∧
    (writesCrcRx i = false → t.crcRx = s.crcRx) ∧
    (writesCrcCalc i = false → t.crcCalc = s.crcCalc) ∧
    (writesField i = false → t.field = s.field) ∧
    (writesOutput i = false → t.outLen = s.outLen ∧ ∀ a, t.mem.read a = s.mem.read a) ∧
    (t.err = 0 → ∀ a, outBase + t.outLen.toNat ≤ a → t.mem.read a = s.mem.read a)

/-- A command takes a time sample exactly when it succeeds, needs the time, and TIME_SRC = 0; then it takes one
(41_timecode.md R121, 60_exceptions.md R244; the count is the model's own: log entry 3). -/
def Obligations.TimeSamplesAreTakenOnlyOnSuccess : Prop :=
  ∀ (i : Instr) (s t : State), exec i s = .next t →
    t.samples = if takesTime i = true ∧ t.err = 0 ∧ s.ctrl.getLsbD 1 = false then s.samples + 1 else s.samples

/-- A command's outcome depends on its listed operands alone: two states that agree on them get the same error code and, on
success, the same results (30_encoding.md R81, 00_scope.md R14). Where the time source is asked, agreeing on the time operand is
agreeing on the model's own count of samples, the index of the free value the source answers next (log entry 3). -/
def Obligations.CommandsReadOnlyTheirOperands : Prop :=
  ∀ (i : Instr) (s t s' t' : State), SameOperands i s t → exec i s = .next s' → exec i t = .next t' →
    s'.err = t'.err ∧ (s'.err = 0 → SameResults i s' t')
end

