-- ==== Sys2Proof/Laws/Bytes.lean ====
section
/-! SUPPORT. Byte sequences: the machine's conversions are the spec's, and the spec's invert each other. -/

namespace Sys2Proof

/-! The spec's conversions. -/

@[simp] theorem Rule.length_beBytes (n v : Nat) : (Rule.beBytes n v).length = n := by
  induction n with
  | zero => rfl
  | succ n ih => simp [Rule.beBytes, ih]

theorem Rule.beNat_lt (b : List Byte) : Rule.beNat b < 256 ^ b.length := by
  induction b with
  | nil => simp [Rule.beNat]
  | cons x b ih =>
    have hx := x.isLt
    have h1 : x.toNat * 256 ^ b.length + Rule.beNat b < (x.toNat + 1) * 256 ^ b.length := by
      rw [Nat.add_mul, Nat.one_mul]; omega
    have h2 : (x.toNat + 1) * 256 ^ b.length ≤ 256 * 256 ^ b.length := Nat.mul_le_mul_right _ (by omega)
    simp only [Rule.beNat, List.length_cons, Nat.pow_succ]
    omega

theorem Rule.beNat_append (a b : List Byte) : Rule.beNat (a ++ b) = Rule.beNat a * 256 ^ b.length + Rule.beNat b := by
  induction a with
  | nil => simp [Rule.beNat]
  | cons x a ih =>
    simp only [List.cons_append, Rule.beNat, ih, List.length_append, Nat.pow_add]
    ring

theorem Rule.beNat_beBytes (n v : Nat) : Rule.beNat (Rule.beBytes n v) = v % 256 ^ n := by
  induction n with
  | zero => simp [Rule.beBytes, Rule.beNat, Nat.mod_one]
  | succ n ih =>
    simp only [Rule.beBytes, Rule.beNat, BitVec.toNat_ofNat, Rule.length_beBytes, ih]
    rw [Nat.pow_succ 256, Nat.mod_mul (a := 256 ^ n), show (2 ^ 8 : Nat) = 256 from rfl]
    ring

theorem Rule.beBytes_mod (n v m : Nat) : Rule.beBytes n (v + 256 ^ n * m) = Rule.beBytes n v := by
  induction n generalizing m with
  | zero => rfl
  | succ n ih =>
    have h1 : v + 256 ^ (n + 1) * m = v + 256 ^ n * (256 * m) := by rw [Nat.pow_succ]; ring
    simp only [Rule.beBytes]
    rw [h1, ih]
    congr 1
    rw [Nat.add_mul_div_left _ _ (by positivity)]
    apply BitVec.eq_of_toNat_eq
    simp

theorem Rule.beBytes_beNat (b : List Byte) : Rule.beBytes b.length (Rule.beNat b) = b := by
  induction b with
  | nil => rfl
  | cons x b ih =>
    have hlt := Rule.beNat_lt b
    simp only [Rule.beNat, List.length_cons, Rule.beBytes]
    congr 1
    · rw [Nat.mul_comm, Nat.mul_add_div (by positivity), Nat.div_eq_of_lt hlt, Nat.add_zero]
      simp
    · rw [Nat.add_comm, Nat.mul_comm, Rule.beBytes_mod, ih]

/-! The machine's conversions. -/

theorem Machine.unbe_eq_beNat (b : List Byte) : Machine.unbe b = Rule.beNat b := by
  have aux : ∀ (b : List Byte) (acc : Nat),
      b.foldl (fun acc x => acc * 256 + x.toNat) acc = acc * 256 ^ b.length + Rule.beNat b := by
    intro b
    induction b with
    | nil => intro acc; simp [Rule.beNat]
    | cons x b ih =>
      intro acc
      simp only [List.foldl_cons, ih, Rule.beNat, List.length_cons, Nat.pow_succ]
      ring
  simpa [Machine.unbe] using aux b 0

theorem Machine.be16_eq_beBytes (v : Half) : Machine.be16 v = Rule.beBytes 2 v.toNat := by
  simp only [Machine.be16, Rule.beBytes, List.cons.injEq, and_true]
  constructor <;> (apply BitVec.eq_of_toNat_eq; simp [BitVec.extractLsb'_toNat, Nat.shiftRight_eq_div_pow])

theorem Machine.be24_eq_beBytes (v : BitVec 24) : Machine.be24 v = Rule.beBytes 3 v.toNat := by
  simp only [Machine.be24, Rule.beBytes, List.cons.injEq, and_true]
  refine ⟨?_, ?_, ?_⟩ <;> (apply BitVec.eq_of_toNat_eq; simp [BitVec.extractLsb'_toNat, Nat.shiftRight_eq_div_pow])

theorem Machine.be32_eq_beBytes (v : Word) : Machine.be32 v = Rule.beBytes 4 v.toNat := by
  simp only [Machine.be32, Rule.beBytes, List.cons.injEq, and_true]
  refine ⟨?_, ?_, ?_, ?_⟩ <;> (apply BitVec.eq_of_toNat_eq; simp [BitVec.extractLsb'_toNat, Nat.shiftRight_eq_div_pow])

@[simp] theorem Machine.length_be16 (v : Half) : (Machine.be16 v).length = 2 := rfl

@[simp] theorem Machine.length_be24 (v : BitVec 24) : (Machine.be24 v).length = 3 := rfl

@[simp] theorem Machine.length_be32 (v : Word) : (Machine.be32 v).length = 4 := rfl

@[simp] theorem Machine.length_secondaryHeader (t : BitVec 24 × Byte) : (Machine.secondaryHeader t).length = 4 := rfl

theorem Machine.secondaryHeader_eq_beBytes (t : BitVec 24 × Byte) :
    Machine.secondaryHeader t = Rule.beBytes 3 t.1.toNat ++ Rule.beBytes 1 t.2.toNat := by
  simp [Machine.secondaryHeader, Machine.be24_eq_beBytes, Rule.beBytes]

/-! The length operand. -/

theorem Machine.State.inLenOk_iff (s : Machine.State) : s.inLenOk = true ↔ s.inLen.toNat ≤ 256 :=
  decide_eq_true_iff

end Sys2Proof
end

