-- ==== Sys2Proof/Laws/Memory.lean ====
section
/-! SUPPORT. The laws of the memory: reading after writing, the canonical form, and reading a run of bytes. -/

namespace Sys2Proof.Machine

/-! One byte. -/

@[simp] theorem Memory.read_nil (a : Nat) : Memory.read [] a = none := rfl

theorem Memory.read_write (m : Memory) (a b : Nat) (v : Byte) :
    (m.write a v).read b = if b = a then some v else m.read b := by
  induction m with
  | nil => simp [Memory.write, Memory.read]
  | cons c m ih =>
    obtain ⟨d, w⟩ := c
    unfold Memory.write
    by_cases h1 : a < d
    · simp [h1, Memory.read]
    · by_cases h2 : a = d
      · subst h2
        by_cases h3 : b = a <;> simp [Memory.read, h3]
      · simp only [h1, h2, if_false, Memory.read, ih]
        by_cases h3 : b = d
        · subst h3; simp [Ne.symm h2]
        · simp [h3]

@[simp] theorem Memory.read_write_same (m : Memory) (a : Nat) (v : Byte) : (m.write a v).read a = some v := by
  simp [Memory.read_write]

theorem Memory.read_write_other (m : Memory) {a b : Nat} (v : Byte) (h : b ≠ a) : (m.write a v).read b = m.read b := by
  simp [Memory.read_write, h]

/-- The memory reads the new byte at each written offset, and as before elsewhere. -/
theorem Memory.read_writeBytes (m : Memory) (a b : Nat) (bs : List Byte) :
    (m.writeBytes a bs).read b = if h : a ≤ b ∧ b - a < bs.length then some bs[b - a] else m.read b := by
  induction bs generalizing m a with
  | nil => simp [Memory.writeBytes]
  | cons v bs ih =>
    simp only [Memory.writeBytes, ih, Memory.read_write, List.length_cons]
    by_cases h0 : b = a
    · subst h0; simp
    · by_cases h1 : a ≤ b ∧ b - a < bs.length + 1
      · obtain ⟨k, rfl⟩ : ∃ k, b = a + 1 + k := ⟨b - (a + 1), by omega⟩
        rw [dif_pos (by omega), dif_pos h1]
        simp [show a + 1 + k - a = k + 1 by omega]
      · rw [dif_neg (by omega), dif_neg h1, if_neg h0]

theorem Memory.read_writeBytes_at (m : Memory) (a k : Nat) (bs : List Byte) (h : k < bs.length) :
    (m.writeBytes a bs).read (a + k) = some bs[k] := by
  rw [Memory.read_writeBytes, dif_pos (by omega)]
  simp

theorem Memory.read_writeBytes_outside (m : Memory) (a b : Nat) (bs : List Byte) (h : b < a ∨ a + bs.length ≤ b) :
    (m.writeBytes a bs).read b = m.read b := by
  rw [Memory.read_writeBytes, dif_neg (by omega)]

/-- No write makes a written byte unwritten. -/
theorem Memory.read_writeBytes_isSome (m : Memory) (a b : Nat) (bs : List Byte) (h : (m.read b).isSome = true) :
    ((m.writeBytes a bs).read b).isSome = true := by
  rw [Memory.read_writeBytes]; split <;> simp [h]

/-! The canonical form. -/

theorem Memory.risingFrom_mono {lo lo' : Nat} (h : lo' ≤ lo) {m : Memory} (hm : m.risingFrom lo = true) :
    m.risingFrom lo' = true := by
  cases m with
  | nil => rfl
  | cons c m =>
    simp only [Memory.risingFrom, Bool.and_eq_true, decide_eq_true_eq] at hm ⊢
    exact ⟨⟨by omega, hm.1.2⟩, hm.2⟩

theorem Memory.risingFrom_write {lo a : Nat} (v : Byte) (h1 : lo ≤ a) (h2 : a < bufEnd) {m : Memory}
    (hm : m.risingFrom lo = true) : (m.write a v).risingFrom lo = true := by
  induction m generalizing lo with
  | nil => simp [Memory.write, Memory.risingFrom, h1, h2]
  | cons c m ih =>
    obtain ⟨d, w⟩ := c
    simp only [Memory.risingFrom, Bool.and_eq_true, decide_eq_true_eq] at hm
    obtain ⟨⟨hd1, hd2⟩, hm⟩ := hm
    unfold Memory.write
    by_cases h3 : a < d
    · simp only [h3, if_true, Memory.risingFrom, Bool.and_eq_true, decide_eq_true_eq]
      exact ⟨⟨h1, h2⟩, ⟨by omega, hd2⟩, hm⟩
    · by_cases h4 : a = d
      · subst h4
        simp [Memory.risingFrom, h1, h2, hm]
      · simp only [h3, h4, if_false, Memory.risingFrom, Bool.and_eq_true, decide_eq_true_eq]
        exact ⟨⟨hd1, hd2⟩, ih (by omega) hm⟩

/-- A write to a buffer byte keeps the canonical form. -/
theorem Memory.wf_write {m : Memory} {a : Nat} (v : Byte) (h1 : inBase ≤ a) (h2 : a < bufEnd) (hm : m.wf = true) :
    (m.write a v).wf = true := Memory.risingFrom_write v h1 h2 hm

/-- A write of several buffer bytes keeps the canonical form. -/
theorem Memory.wf_writeBytes {m : Memory} {a : Nat} {bs : List Byte} (h1 : inBase ≤ a) (h2 : a + bs.length ≤ bufEnd)
    (hm : m.wf = true) : (m.writeBytes a bs).wf = true := by
  induction bs generalizing m a with
  | nil => exact hm
  | cons v bs ih =>
    simp only [List.length_cons] at h2
    exact ih (by omega) (by omega) (Memory.wf_write v h1 (by omega) hm)

theorem Memory.wf_reset : State.reset.mem.wf = true := rfl

/-- Two canonical memories that read alike are equal data. -/
theorem Memory.risingFrom_ext {lo : Nat} {m n : Memory} (hm : m.risingFrom lo = true) (hn : n.risingFrom lo = true)
    (h : ∀ a, m.read a = n.read a) : m = n := by
  have below : ∀ {lo a : Nat} {m : Memory}, m.risingFrom lo = true → a < lo → m.read a = none := by
    intro lo a m
    induction m generalizing lo with
    | nil => intros; rfl
    | cons c m ih =>
      intro hm ha
      simp only [Memory.risingFrom, Bool.and_eq_true, decide_eq_true_eq] at hm
      simp only [Memory.read]
      rw [if_neg (by omega)]
      exact ih hm.2 (by omega)
  induction m generalizing lo n with
  | nil =>
    cases n with
    | nil => rfl
    | cons c n => have := h c.1; simp [Memory.read] at this
  | cons c m ih =>
    obtain ⟨d, w⟩ := c
    simp only [Memory.risingFrom, Bool.and_eq_true, decide_eq_true_eq] at hm
    cases n with
    | nil => have := h d; simp [Memory.read] at this
    | cons e n =>
      obtain ⟨e, x⟩ := e
      simp only [Memory.risingFrom, Bool.and_eq_true, decide_eq_true_eq] at hn
      have hde : d = e := by
        rcases Nat.lt_trichotomy d e with hlt | heq | hgt
        · have := h d
          simp only [Memory.read, if_true] at this
          rw [if_neg (by omega), below hn.2 (by omega)] at this
          simp at this
        · exact heq
        · have := h e
          simp only [Memory.read, if_true] at this
          rw [if_neg (by omega), below hm.2 (by omega)] at this
          simp at this
      subst hde
      have hwx : w = x := by simpa [Memory.read] using h d
      subst hwx
      congr 1
      refine ih hm.2 hn.2 fun a => ?_
      by_cases ha : a = d
      · subst ha; rw [below hm.2 (by omega), below hn.2 (by omega)]
      · simpa [Memory.read, ha] using h a

/-- Equal reads are equal memories, for canonical memories. -/
theorem Memory.wf_ext {m n : Memory} (hm : m.wf = true) (hn : n.wf = true) (h : ∀ a, m.read a = n.read a) : m = n :=
  Memory.risingFrom_ext hm hn h

/-! A run of bytes. -/

/-- The run is answered exactly when it has the asked length and each of its bytes is what the memory reads there. -/
theorem Memory.readBytes_eq_some {m : Memory} {a n : Nat} {b : List Byte} :
    m.readBytes a n = some b ↔ b.length = n ∧ ∀ k, (h : k < b.length) → m.read (a + k) = some b[k] := by
  induction n generalizing a b with
  | zero => cases b <;> simp [Memory.readBytes]
  | succ n ih =>
    constructor
    · intro h
      simp only [Memory.readBytes] at h
      split at h
      · rename_i v bs h1 h2
        obtain ⟨hl, hk⟩ := ih.mp h2
        obtain rfl : v :: bs = b := Option.some.inj h
        refine ⟨by simp [hl], fun k hlt => ?_⟩
        cases k with
        | zero => simpa using h1
        | succ k =>
          have := hk k (by simpa using hlt)
          simpa [Nat.add_assoc, Nat.add_comm 1 k] using this
      · cases h
    · rintro ⟨hl, hk⟩
      cases b with
      | nil => simp at hl
      | cons v bs =>
        have h1 : m.read a = some v := hk 0 (by simp)
        have h2 : m.readBytes (a + 1) n = some bs := by
          refine ih.mpr ⟨by simpa using hl, fun k hlt => ?_⟩
          have := hk (k + 1) (by simpa using hlt)
          simpa [Nat.add_assoc, Nat.add_comm 1 k] using this
        simp [Memory.readBytes, h1, h2]

/-- The run is not answered exactly when one of its bytes is unwritten. -/
theorem Memory.readBytes_eq_none {m : Memory} {a n : Nat} :
    m.readBytes a n = none ↔ ∃ k, k < n ∧ m.read (a + k) = none := by
  induction n generalizing a with
  | zero => simp [Memory.readBytes]
  | succ n ih =>
    constructor
    · intro h
      simp only [Memory.readBytes] at h
      split at h
      · cases h
      · rename_i hne
        cases h1 : m.read a with
        | none => exact ⟨0, by omega, by simpa using h1⟩
        | some v =>
          cases h2 : m.readBytes (a + 1) n with
          | some bs => exact (hne v bs h1 h2).elim
          | none =>
            obtain ⟨k, hk, hr⟩ := ih.mp h2
            exact ⟨k + 1, by omega, by rw [← hr]; congr 1; omega⟩
    · rintro ⟨k, hk, hr⟩
      simp only [Memory.readBytes]
      cases k with
      | zero => simp [show m.read a = none by simpa using hr]
      | succ k =>
        have h2 : m.readBytes (a + 1) n = none := ih.mpr ⟨k, by omega, by rw [← hr]; congr 1; omega⟩
        simp [h2]

end Sys2Proof.Machine
end

