-- ==== Sys2Proof/Laws/State.lean ====
section
/-! SUPPORT. What each named update of the state does to each field, one lemma per field per update, so that no proof unfolds
an update. -/

namespace Sys2Proof.Machine

/-! setStatus -/

@[simp] theorem State.setStatus_ctrl (c : BitVec 4) (s : State) : (s.setStatus c).ctrl = s.ctrl := rfl
@[simp] theorem State.setStatus_err (c : BitVec 4) (s : State) : (s.setStatus c).err = c := rfl
@[simp] theorem State.setStatus_done (c : BitVec 4) (s : State) : (s.setStatus c).done = true := rfl
@[simp] theorem State.setStatus_result (c : BitVec 4) (s : State) : (s.setStatus c).result = s.result := rfl
@[simp] theorem State.setStatus_crcAcc (c : BitVec 4) (s : State) : (s.setStatus c).crcAcc = s.crcAcc := rfl
@[simp] theorem State.setStatus_argSubsys (c : BitVec 4) (s : State) : (s.setStatus c).argSubsys = s.argSubsys := rfl
@[simp] theorem State.setStatus_argApid (c : BitVec 4) (s : State) : (s.setStatus c).argApid = s.argApid := rfl
@[simp] theorem State.setStatus_argSeq (c : BitVec 4) (s : State) : (s.setStatus c).argSeq = s.argSeq := rfl
@[simp] theorem State.setStatus_argDlen (c : BitVec 4) (s : State) : (s.setStatus c).argDlen = s.argDlen := rfl
@[simp] theorem State.setStatus_timeIn (c : BitVec 4) (s : State) : (s.setStatus c).timeIn = s.timeIn := rfl
@[simp] theorem State.setStatus_timeCoarse (c : BitVec 4) (s : State) : (s.setStatus c).timeCoarse = s.timeCoarse := rfl
@[simp] theorem State.setStatus_timeFine (c : BitVec 4) (s : State) : (s.setStatus c).timeFine = s.timeFine := rfl
@[simp] theorem State.setStatus_phVersion (c : BitVec 4) (s : State) : (s.setStatus c).phVersion = s.phVersion := rfl
@[simp] theorem State.setStatus_phType (c : BitVec 4) (s : State) : (s.setStatus c).phType = s.phType := rfl
@[simp] theorem State.setStatus_phShf (c : BitVec 4) (s : State) : (s.setStatus c).phShf = s.phShf := rfl
@[simp] theorem State.setStatus_phApid (c : BitVec 4) (s : State) : (s.setStatus c).phApid = s.phApid := rfl
@[simp] theorem State.setStatus_phSeqf (c : BitVec 4) (s : State) : (s.setStatus c).phSeqf = s.phSeqf := rfl
@[simp] theorem State.setStatus_phSeq (c : BitVec 4) (s : State) : (s.setStatus c).phSeq = s.phSeq := rfl
@[simp] theorem State.setStatus_phDlen (c : BitVec 4) (s : State) : (s.setStatus c).phDlen = s.phDlen := rfl
@[simp] theorem State.setStatus_phLength (c : BitVec 4) (s : State) : (s.setStatus c).phLength = s.phLength := rfl
@[simp] theorem State.setStatus_crcRx (c : BitVec 4) (s : State) : (s.setStatus c).crcRx = s.crcRx := rfl
@[simp] theorem State.setStatus_crcCalc (c : BitVec 4) (s : State) : (s.setStatus c).crcCalc = s.crcCalc := rfl
@[simp] theorem State.setStatus_inLen (c : BitVec 4) (s : State) : (s.setStatus c).inLen = s.inLen := rfl
@[simp] theorem State.setStatus_outLen (c : BitVec 4) (s : State) : (s.setStatus c).outLen = s.outLen := rfl
@[simp] theorem State.setStatus_field (c : BitVec 4) (s : State) : (s.setStatus c).field = s.field := rfl
@[simp] theorem State.setStatus_mem (c : BitVec 4) (s : State) : (s.setStatus c).mem = s.mem := rfl
@[simp] theorem State.setStatus_resetAsserted (c : BitVec 4) (s : State) : (s.setStatus c).resetAsserted = s.resetAsserted := rfl
@[simp] theorem State.setStatus_samples (c : BitVec 4) (s : State) : (s.setStatus c).samples = s.samples := rfl
@[simp] theorem State.setStatus_events (c : BitVec 4) (s : State) : (s.setStatus c).events = s.events := rfl
@[simp] theorem State.setStatus_response (c : BitVec 4) (s : State) : (s.setStatus c).response = s.response := rfl

/-! raise -/

@[simp] theorem State.raise_ctrl (e : ErrCode) (s : State) : (s.raise e).ctrl = s.ctrl := rfl
@[simp] theorem State.raise_err (e : ErrCode) (s : State) : (s.raise e).err = e.code := rfl
@[simp] theorem State.raise_done (e : ErrCode) (s : State) : (s.raise e).done = true := rfl
@[simp] theorem State.raise_result (e : ErrCode) (s : State) : (s.raise e).result = s.result := rfl
@[simp] theorem State.raise_crcAcc (e : ErrCode) (s : State) : (s.raise e).crcAcc = s.crcAcc := rfl
@[simp] theorem State.raise_argSubsys (e : ErrCode) (s : State) : (s.raise e).argSubsys = s.argSubsys := rfl
@[simp] theorem State.raise_argApid (e : ErrCode) (s : State) : (s.raise e).argApid = s.argApid := rfl
@[simp] theorem State.raise_argSeq (e : ErrCode) (s : State) : (s.raise e).argSeq = s.argSeq := rfl
@[simp] theorem State.raise_argDlen (e : ErrCode) (s : State) : (s.raise e).argDlen = s.argDlen := rfl
@[simp] theorem State.raise_timeIn (e : ErrCode) (s : State) : (s.raise e).timeIn = s.timeIn := rfl
@[simp] theorem State.raise_timeCoarse (e : ErrCode) (s : State) : (s.raise e).timeCoarse = s.timeCoarse := rfl
@[simp] theorem State.raise_timeFine (e : ErrCode) (s : State) : (s.raise e).timeFine = s.timeFine := rfl
@[simp] theorem State.raise_phVersion (e : ErrCode) (s : State) : (s.raise e).phVersion = s.phVersion := rfl
@[simp] theorem State.raise_phType (e : ErrCode) (s : State) : (s.raise e).phType = s.phType := rfl
@[simp] theorem State.raise_phShf (e : ErrCode) (s : State) : (s.raise e).phShf = s.phShf := rfl
@[simp] theorem State.raise_phApid (e : ErrCode) (s : State) : (s.raise e).phApid = s.phApid := rfl
@[simp] theorem State.raise_phSeqf (e : ErrCode) (s : State) : (s.raise e).phSeqf = s.phSeqf := rfl
@[simp] theorem State.raise_phSeq (e : ErrCode) (s : State) : (s.raise e).phSeq = s.phSeq := rfl
@[simp] theorem State.raise_phDlen (e : ErrCode) (s : State) : (s.raise e).phDlen = s.phDlen := rfl
@[simp] theorem State.raise_phLength (e : ErrCode) (s : State) : (s.raise e).phLength = s.phLength := rfl
@[simp] theorem State.raise_crcRx (e : ErrCode) (s : State) : (s.raise e).crcRx = s.crcRx := rfl
@[simp] theorem State.raise_crcCalc (e : ErrCode) (s : State) : (s.raise e).crcCalc = s.crcCalc := rfl
@[simp] theorem State.raise_inLen (e : ErrCode) (s : State) : (s.raise e).inLen = s.inLen := rfl
@[simp] theorem State.raise_outLen (e : ErrCode) (s : State) : (s.raise e).outLen = s.outLen := rfl
@[simp] theorem State.raise_field (e : ErrCode) (s : State) : (s.raise e).field = s.field := rfl
@[simp] theorem State.raise_mem (e : ErrCode) (s : State) : (s.raise e).mem = s.mem := rfl
@[simp] theorem State.raise_resetAsserted (e : ErrCode) (s : State) : (s.raise e).resetAsserted = s.resetAsserted := rfl
@[simp] theorem State.raise_samples (e : ErrCode) (s : State) : (s.raise e).samples = s.samples := rfl
@[simp] theorem State.raise_events (e : ErrCode) (s : State) : (s.raise e).events = s.events := rfl
@[simp] theorem State.raise_response (e : ErrCode) (s : State) : (s.raise e).response = s.response := rfl

/-! putOutput -/

@[simp] theorem State.putOutput_ctrl (b : List Byte) (s : State) : (s.putOutput b).ctrl = s.ctrl := rfl
@[simp] theorem State.putOutput_err (b : List Byte) (s : State) : (s.putOutput b).err = s.err := rfl
@[simp] theorem State.putOutput_done (b : List Byte) (s : State) : (s.putOutput b).done = s.done := rfl
@[simp] theorem State.putOutput_result (b : List Byte) (s : State) : (s.putOutput b).result = s.result := rfl
@[simp] theorem State.putOutput_crcAcc (b : List Byte) (s : State) : (s.putOutput b).crcAcc = s.crcAcc := rfl
@[simp] theorem State.putOutput_argSubsys (b : List Byte) (s : State) : (s.putOutput b).argSubsys = s.argSubsys := rfl
@[simp] theorem State.putOutput_argApid (b : List Byte) (s : State) : (s.putOutput b).argApid = s.argApid := rfl
@[simp] theorem State.putOutput_argSeq (b : List Byte) (s : State) : (s.putOutput b).argSeq = s.argSeq := rfl
@[simp] theorem State.putOutput_argDlen (b : List Byte) (s : State) : (s.putOutput b).argDlen = s.argDlen := rfl
@[simp] theorem State.putOutput_timeIn (b : List Byte) (s : State) : (s.putOutput b).timeIn = s.timeIn := rfl
@[simp] theorem State.putOutput_timeCoarse (b : List Byte) (s : State) : (s.putOutput b).timeCoarse = s.timeCoarse := rfl
@[simp] theorem State.putOutput_timeFine (b : List Byte) (s : State) : (s.putOutput b).timeFine = s.timeFine := rfl
@[simp] theorem State.putOutput_phVersion (b : List Byte) (s : State) : (s.putOutput b).phVersion = s.phVersion := rfl
@[simp] theorem State.putOutput_phType (b : List Byte) (s : State) : (s.putOutput b).phType = s.phType := rfl
@[simp] theorem State.putOutput_phShf (b : List Byte) (s : State) : (s.putOutput b).phShf = s.phShf := rfl
@[simp] theorem State.putOutput_phApid (b : List Byte) (s : State) : (s.putOutput b).phApid = s.phApid := rfl
@[simp] theorem State.putOutput_phSeqf (b : List Byte) (s : State) : (s.putOutput b).phSeqf = s.phSeqf := rfl
@[simp] theorem State.putOutput_phSeq (b : List Byte) (s : State) : (s.putOutput b).phSeq = s.phSeq := rfl
@[simp] theorem State.putOutput_phDlen (b : List Byte) (s : State) : (s.putOutput b).phDlen = s.phDlen := rfl
@[simp] theorem State.putOutput_phLength (b : List Byte) (s : State) : (s.putOutput b).phLength = s.phLength := rfl
@[simp] theorem State.putOutput_crcRx (b : List Byte) (s : State) : (s.putOutput b).crcRx = s.crcRx := rfl
@[simp] theorem State.putOutput_crcCalc (b : List Byte) (s : State) : (s.putOutput b).crcCalc = s.crcCalc := rfl
@[simp] theorem State.putOutput_inLen (b : List Byte) (s : State) : (s.putOutput b).inLen = s.inLen := rfl
@[simp] theorem State.putOutput_outLen (b : List Byte) (s : State) : (s.putOutput b).outLen = BitVec.ofNat 9 b.length := rfl
@[simp] theorem State.putOutput_field (b : List Byte) (s : State) : (s.putOutput b).field = s.field := rfl
@[simp] theorem State.putOutput_mem (b : List Byte) (s : State) : (s.putOutput b).mem = s.mem.writeBytes outBase b := rfl
@[simp] theorem State.putOutput_resetAsserted (b : List Byte) (s : State) : (s.putOutput b).resetAsserted = s.resetAsserted := rfl
@[simp] theorem State.putOutput_samples (b : List Byte) (s : State) : (s.putOutput b).samples = s.samples := rfl
@[simp] theorem State.putOutput_events (b : List Byte) (s : State) : (s.putOutput b).events = s.events := rfl
@[simp] theorem State.putOutput_response (b : List Byte) (s : State) : (s.putOutput b).response = s.response := rfl

/-! putTime -/

@[simp] theorem State.putTime_ctrl (x : BitVec 24 × Byte) (s : State) : (s.putTime x).ctrl = s.ctrl := rfl
@[simp] theorem State.putTime_err (x : BitVec 24 × Byte) (s : State) : (s.putTime x).err = s.err := rfl
@[simp] theorem State.putTime_done (x : BitVec 24 × Byte) (s : State) : (s.putTime x).done = s.done := rfl
@[simp] theorem State.putTime_result (x : BitVec 24 × Byte) (s : State) : (s.putTime x).result = s.result := rfl
@[simp] theorem State.putTime_crcAcc (x : BitVec 24 × Byte) (s : State) : (s.putTime x).crcAcc = s.crcAcc := rfl
@[simp] theorem State.putTime_argSubsys (x : BitVec 24 × Byte) (s : State) : (s.putTime x).argSubsys = s.argSubsys := rfl
@[simp] theorem State.putTime_argApid (x : BitVec 24 × Byte) (s : State) : (s.putTime x).argApid = s.argApid := rfl
@[simp] theorem State.putTime_argSeq (x : BitVec 24 × Byte) (s : State) : (s.putTime x).argSeq = s.argSeq := rfl
@[simp] theorem State.putTime_argDlen (x : BitVec 24 × Byte) (s : State) : (s.putTime x).argDlen = s.argDlen := rfl
@[simp] theorem State.putTime_timeIn (x : BitVec 24 × Byte) (s : State) : (s.putTime x).timeIn = s.timeIn := rfl
@[simp] theorem State.putTime_timeCoarse (x : BitVec 24 × Byte) (s : State) : (s.putTime x).timeCoarse = x.1 := rfl
@[simp] theorem State.putTime_timeFine (x : BitVec 24 × Byte) (s : State) : (s.putTime x).timeFine = x.2 := rfl
@[simp] theorem State.putTime_phVersion (x : BitVec 24 × Byte) (s : State) : (s.putTime x).phVersion = s.phVersion := rfl
@[simp] theorem State.putTime_phType (x : BitVec 24 × Byte) (s : State) : (s.putTime x).phType = s.phType := rfl
@[simp] theorem State.putTime_phShf (x : BitVec 24 × Byte) (s : State) : (s.putTime x).phShf = s.phShf := rfl
@[simp] theorem State.putTime_phApid (x : BitVec 24 × Byte) (s : State) : (s.putTime x).phApid = s.phApid := rfl
@[simp] theorem State.putTime_phSeqf (x : BitVec 24 × Byte) (s : State) : (s.putTime x).phSeqf = s.phSeqf := rfl
@[simp] theorem State.putTime_phSeq (x : BitVec 24 × Byte) (s : State) : (s.putTime x).phSeq = s.phSeq := rfl
@[simp] theorem State.putTime_phDlen (x : BitVec 24 × Byte) (s : State) : (s.putTime x).phDlen = s.phDlen := rfl
@[simp] theorem State.putTime_phLength (x : BitVec 24 × Byte) (s : State) : (s.putTime x).phLength = s.phLength := rfl
@[simp] theorem State.putTime_crcRx (x : BitVec 24 × Byte) (s : State) : (s.putTime x).crcRx = s.crcRx := rfl
@[simp] theorem State.putTime_crcCalc (x : BitVec 24 × Byte) (s : State) : (s.putTime x).crcCalc = s.crcCalc := rfl
@[simp] theorem State.putTime_inLen (x : BitVec 24 × Byte) (s : State) : (s.putTime x).inLen = s.inLen := rfl
@[simp] theorem State.putTime_outLen (x : BitVec 24 × Byte) (s : State) : (s.putTime x).outLen = s.outLen := rfl
@[simp] theorem State.putTime_field (x : BitVec 24 × Byte) (s : State) : (s.putTime x).field = s.field := rfl
@[simp] theorem State.putTime_mem (x : BitVec 24 × Byte) (s : State) : (s.putTime x).mem = s.mem := rfl
@[simp] theorem State.putTime_resetAsserted (x : BitVec 24 × Byte) (s : State) : (s.putTime x).resetAsserted = s.resetAsserted := rfl
@[simp] theorem State.putTime_samples (x : BitVec 24 × Byte) (s : State) : (s.putTime x).samples = s.samples := rfl
@[simp] theorem State.putTime_events (x : BitVec 24 × Byte) (s : State) : (s.putTime x).events = s.events := rfl
@[simp] theorem State.putTime_response (x : BitVec 24 × Byte) (s : State) : (s.putTime x).response = s.response := rfl

/-! putHeader -/

@[simp] theorem State.putHeader_ctrl (w1 w2 w3 : Half) (s : State) : (s.putHeader w1 w2 w3).ctrl = s.ctrl := rfl
@[simp] theorem State.putHeader_err (w1 w2 w3 : Half) (s : State) : (s.putHeader w1 w2 w3).err = s.err := rfl
@[simp] theorem State.putHeader_done (w1 w2 w3 : Half) (s : State) : (s.putHeader w1 w2 w3).done = s.done := rfl
@[simp] theorem State.putHeader_result (w1 w2 w3 : Half) (s : State) : (s.putHeader w1 w2 w3).result = s.result := rfl
@[simp] theorem State.putHeader_crcAcc (w1 w2 w3 : Half) (s : State) : (s.putHeader w1 w2 w3).crcAcc = s.crcAcc := rfl
@[simp] theorem State.putHeader_argSubsys (w1 w2 w3 : Half) (s : State) : (s.putHeader w1 w2 w3).argSubsys = s.argSubsys := rfl
@[simp] theorem State.putHeader_argApid (w1 w2 w3 : Half) (s : State) : (s.putHeader w1 w2 w3).argApid = s.argApid := rfl
@[simp] theorem State.putHeader_argSeq (w1 w2 w3 : Half) (s : State) : (s.putHeader w1 w2 w3).argSeq = s.argSeq := rfl
@[simp] theorem State.putHeader_argDlen (w1 w2 w3 : Half) (s : State) : (s.putHeader w1 w2 w3).argDlen = s.argDlen := rfl
@[simp] theorem State.putHeader_timeIn (w1 w2 w3 : Half) (s : State) : (s.putHeader w1 w2 w3).timeIn = s.timeIn := rfl
@[simp] theorem State.putHeader_timeCoarse (w1 w2 w3 : Half) (s : State) : (s.putHeader w1 w2 w3).timeCoarse = s.timeCoarse := rfl
@[simp] theorem State.putHeader_timeFine (w1 w2 w3 : Half) (s : State) : (s.putHeader w1 w2 w3).timeFine = s.timeFine := rfl
@[simp] theorem State.putHeader_phVersion (w1 w2 w3 : Half) (s : State) : (s.putHeader w1 w2 w3).phVersion = versionOf w1 := rfl
@[simp] theorem State.putHeader_phType (w1 w2 w3 : Half) (s : State) : (s.putHeader w1 w2 w3).phType = typeOf w1 := rfl
@[simp] theorem State.putHeader_phShf (w1 w2 w3 : Half) (s : State) : (s.putHeader w1 w2 w3).phShf = shfOf w1 := rfl
@[simp] theorem State.putHeader_phApid (w1 w2 w3 : Half) (s : State) : (s.putHeader w1 w2 w3).phApid = apidOf w1 := rfl
@[simp] theorem State.putHeader_phSeqf (w1 w2 w3 : Half) (s : State) : (s.putHeader w1 w2 w3).phSeqf = seqfOf w2 := rfl
@[simp] theorem State.putHeader_phSeq (w1 w2 w3 : Half) (s : State) : (s.putHeader w1 w2 w3).phSeq = seqOf w2 := rfl
@[simp] theorem State.putHeader_phDlen (w1 w2 w3 : Half) (s : State) : (s.putHeader w1 w2 w3).phDlen = w3 := rfl
@[simp] theorem State.putHeader_phLength (w1 w2 w3 : Half) (s : State) : (s.putHeader w1 w2 w3).phLength = w3.setWidth 17 + 1 := rfl
@[simp] theorem State.putHeader_crcRx (w1 w2 w3 : Half) (s : State) : (s.putHeader w1 w2 w3).crcRx = s.crcRx := rfl
@[simp] theorem State.putHeader_crcCalc (w1 w2 w3 : Half) (s : State) : (s.putHeader w1 w2 w3).crcCalc = s.crcCalc := rfl
@[simp] theorem State.putHeader_inLen (w1 w2 w3 : Half) (s : State) : (s.putHeader w1 w2 w3).inLen = s.inLen := rfl
@[simp] theorem State.putHeader_outLen (w1 w2 w3 : Half) (s : State) : (s.putHeader w1 w2 w3).outLen = s.outLen := rfl
@[simp] theorem State.putHeader_field (w1 w2 w3 : Half) (s : State) : (s.putHeader w1 w2 w3).field = s.field := rfl
@[simp] theorem State.putHeader_mem (w1 w2 w3 : Half) (s : State) : (s.putHeader w1 w2 w3).mem = s.mem := rfl
@[simp] theorem State.putHeader_resetAsserted (w1 w2 w3 : Half) (s : State) : (s.putHeader w1 w2 w3).resetAsserted = s.resetAsserted := rfl
@[simp] theorem State.putHeader_samples (w1 w2 w3 : Half) (s : State) : (s.putHeader w1 w2 w3).samples = s.samples := rfl
@[simp] theorem State.putHeader_events (w1 w2 w3 : Half) (s : State) : (s.putHeader w1 w2 w3).events = s.events := rfl
@[simp] theorem State.putHeader_response (w1 w2 w3 : Half) (s : State) : (s.putHeader w1 w2 w3).response = s.response := rfl

/-! withCommandWord -/

@[simp] theorem State.withCommandWord_ctrl (w : Word) (s : State) : (s.withCommandWord w).ctrl = s.ctrl := rfl
@[simp] theorem State.withCommandWord_err (w : Word) (s : State) : (s.withCommandWord w).err = s.err := rfl
@[simp] theorem State.withCommandWord_done (w : Word) (s : State) : (s.withCommandWord w).done = s.done := rfl
@[simp] theorem State.withCommandWord_result (w : Word) (s : State) : (s.withCommandWord w).result = s.result := rfl
@[simp] theorem State.withCommandWord_crcAcc (w : Word) (s : State) : (s.withCommandWord w).crcAcc = s.crcAcc := rfl
@[simp] theorem State.withCommandWord_argSubsys (w : Word) (s : State) : (s.withCommandWord w).argSubsys = s.argSubsys := rfl
@[simp] theorem State.withCommandWord_argApid (w : Word) (s : State) : (s.withCommandWord w).argApid = s.argApid := rfl
@[simp] theorem State.withCommandWord_argSeq (w : Word) (s : State) : (s.withCommandWord w).argSeq = s.argSeq := rfl
@[simp] theorem State.withCommandWord_argDlen (w : Word) (s : State) : (s.withCommandWord w).argDlen = s.argDlen := rfl
@[simp] theorem State.withCommandWord_timeIn (w : Word) (s : State) : (s.withCommandWord w).timeIn = s.timeIn := rfl
@[simp] theorem State.withCommandWord_timeCoarse (w : Word) (s : State) : (s.withCommandWord w).timeCoarse = s.timeCoarse := rfl
@[simp] theorem State.withCommandWord_timeFine (w : Word) (s : State) : (s.withCommandWord w).timeFine = s.timeFine := rfl
@[simp] theorem State.withCommandWord_phVersion (w : Word) (s : State) : (s.withCommandWord w).phVersion = s.phVersion := rfl
@[simp] theorem State.withCommandWord_phType (w : Word) (s : State) : (s.withCommandWord w).phType = s.phType := rfl
@[simp] theorem State.withCommandWord_phShf (w : Word) (s : State) : (s.withCommandWord w).phShf = s.phShf := rfl
@[simp] theorem State.withCommandWord_phApid (w : Word) (s : State) : (s.withCommandWord w).phApid = s.phApid := rfl
@[simp] theorem State.withCommandWord_phSeqf (w : Word) (s : State) : (s.withCommandWord w).phSeqf = s.phSeqf := rfl
@[simp] theorem State.withCommandWord_phSeq (w : Word) (s : State) : (s.withCommandWord w).phSeq = s.phSeq := rfl
@[simp] theorem State.withCommandWord_phDlen (w : Word) (s : State) : (s.withCommandWord w).phDlen = s.phDlen := rfl
@[simp] theorem State.withCommandWord_phLength (w : Word) (s : State) : (s.withCommandWord w).phLength = s.phLength := rfl
@[simp] theorem State.withCommandWord_crcRx (w : Word) (s : State) : (s.withCommandWord w).crcRx = s.crcRx := rfl
@[simp] theorem State.withCommandWord_crcCalc (w : Word) (s : State) : (s.withCommandWord w).crcCalc = s.crcCalc := rfl
@[simp] theorem State.withCommandWord_inLen (w : Word) (s : State) : (s.withCommandWord w).inLen = s.inLen := rfl
@[simp] theorem State.withCommandWord_outLen (w : Word) (s : State) : (s.withCommandWord w).outLen = s.outLen := rfl
@[simp] theorem State.withCommandWord_field (w : Word) (s : State) : (s.withCommandWord w).field = s.field := rfl
@[simp] theorem State.withCommandWord_mem (w : Word) (s : State) : (s.withCommandWord w).mem = s.mem := rfl
@[simp] theorem State.withCommandWord_resetAsserted (w : Word) (s : State) : (s.withCommandWord w).resetAsserted = false := rfl
@[simp] theorem State.withCommandWord_samples (w : Word) (s : State) : (s.withCommandWord w).samples = s.samples := rfl
@[simp] theorem State.withCommandWord_events (w : Word) (s : State) : (s.withCommandWord w).events = .access (.write cmdOffset 4 w) :: s.events := rfl
@[simp] theorem State.withCommandWord_response (w : Word) (s : State) : (s.withCommandWord w).response = s.response := rfl

/-! sampleTaken -/

@[simp] theorem State.sampleTaken_ctrl (s : State) : s.sampleTaken.ctrl = s.ctrl := by
  unfold State.sampleTaken; split <;> rfl
@[simp] theorem State.sampleTaken_err (s : State) : s.sampleTaken.err = s.err := by
  unfold State.sampleTaken; split <;> rfl
@[simp] theorem State.sampleTaken_done (s : State) : s.sampleTaken.done = s.done := by
  unfold State.sampleTaken; split <;> rfl
@[simp] theorem State.sampleTaken_result (s : State) : s.sampleTaken.result = s.result := by
  unfold State.sampleTaken; split <;> rfl
@[simp] theorem State.sampleTaken_crcAcc (s : State) : s.sampleTaken.crcAcc = s.crcAcc := by
  unfold State.sampleTaken; split <;> rfl
@[simp] theorem State.sampleTaken_argSubsys (s : State) : s.sampleTaken.argSubsys = s.argSubsys := by
  unfold State.sampleTaken; split <;> rfl
@[simp] theorem State.sampleTaken_argApid (s : State) : s.sampleTaken.argApid = s.argApid := by
  unfold State.sampleTaken; split <;> rfl
@[simp] theorem State.sampleTaken_argSeq (s : State) : s.sampleTaken.argSeq = s.argSeq := by
  unfold State.sampleTaken; split <;> rfl
@[simp] theorem State.sampleTaken_argDlen (s : State) : s.sampleTaken.argDlen = s.argDlen := by
  unfold State.sampleTaken; split <;> rfl
@[simp] theorem State.sampleTaken_timeIn (s : State) : s.sampleTaken.timeIn = s.timeIn := by
  unfold State.sampleTaken; split <;> rfl
@[simp] theorem State.sampleTaken_timeCoarse (s : State) : s.sampleTaken.timeCoarse = s.timeCoarse := by
  unfold State.sampleTaken; split <;> rfl
@[simp] theorem State.sampleTaken_timeFine (s : State) : s.sampleTaken.timeFine = s.timeFine := by
  unfold State.sampleTaken; split <;> rfl
@[simp] theorem State.sampleTaken_phVersion (s : State) : s.sampleTaken.phVersion = s.phVersion := by
  unfold State.sampleTaken; split <;> rfl
@[simp] theorem State.sampleTaken_phType (s : State) : s.sampleTaken.phType = s.phType := by
  unfold State.sampleTaken; split <;> rfl
@[simp] theorem State.sampleTaken_phShf (s : State) : s.sampleTaken.phShf = s.phShf := by
  unfold State.sampleTaken; split <;> rfl
@[simp] theorem State.sampleTaken_phApid (s : State) : s.sampleTaken.phApid = s.phApid := by
  unfold State.sampleTaken; split <;> rfl
@[simp] theorem State.sampleTaken_phSeqf (s : State) : s.sampleTaken.phSeqf = s.phSeqf := by
  unfold State.sampleTaken; split <;> rfl
@[simp] theorem State.sampleTaken_phSeq (s : State) : s.sampleTaken.phSeq = s.phSeq := by
  unfold State.sampleTaken; split <;> rfl
@[simp] theorem State.sampleTaken_phDlen (s : State) : s.sampleTaken.phDlen = s.phDlen := by
  unfold State.sampleTaken; split <;> rfl
@[simp] theorem State.sampleTaken_phLength (s : State) : s.sampleTaken.phLength = s.phLength := by
  unfold State.sampleTaken; split <;> rfl
@[simp] theorem State.sampleTaken_crcRx (s : State) : s.sampleTaken.crcRx = s.crcRx := by
  unfold State.sampleTaken; split <;> rfl
@[simp] theorem State.sampleTaken_crcCalc (s : State) : s.sampleTaken.crcCalc = s.crcCalc := by
  unfold State.sampleTaken; split <;> rfl
@[simp] theorem State.sampleTaken_inLen (s : State) : s.sampleTaken.inLen = s.inLen := by
  unfold State.sampleTaken; split <;> rfl
@[simp] theorem State.sampleTaken_outLen (s : State) : s.sampleTaken.outLen = s.outLen := by
  unfold State.sampleTaken; split <;> rfl
@[simp] theorem State.sampleTaken_field (s : State) : s.sampleTaken.field = s.field := by
  unfold State.sampleTaken; split <;> rfl
@[simp] theorem State.sampleTaken_mem (s : State) : s.sampleTaken.mem = s.mem := by
  unfold State.sampleTaken; split <;> rfl
@[simp] theorem State.sampleTaken_resetAsserted (s : State) : s.sampleTaken.resetAsserted = s.resetAsserted := by
  unfold State.sampleTaken; split <;> rfl
theorem State.sampleTaken_samples (s : State) :
    s.sampleTaken.samples = if s.timeSrc then s.samples else s.samples + 1 := by
  unfold State.sampleTaken; split <;> rfl
@[simp] theorem State.sampleTaken_events (s : State) : s.sampleTaken.events = s.events := by
  unfold State.sampleTaken; split <;> rfl
@[simp] theorem State.sampleTaken_response (s : State) : s.sampleTaken.response = s.response := by
  unfold State.sampleTaken; split <;> rfl

/-! takeReset -/

@[simp] theorem State.takeReset_ctrl (s : State) : s.takeReset.ctrl = State.reset.ctrl := rfl
@[simp] theorem State.takeReset_err (s : State) : s.takeReset.err = State.reset.err := rfl
@[simp] theorem State.takeReset_done (s : State) : s.takeReset.done = State.reset.done := rfl
@[simp] theorem State.takeReset_result (s : State) : s.takeReset.result = State.reset.result := rfl
@[simp] theorem State.takeReset_crcAcc (s : State) : s.takeReset.crcAcc = State.reset.crcAcc := rfl
@[simp] theorem State.takeReset_argSubsys (s : State) : s.takeReset.argSubsys = State.reset.argSubsys := rfl
@[simp] theorem State.takeReset_argApid (s : State) : s.takeReset.argApid = State.reset.argApid := rfl
@[simp] theorem State.takeReset_argSeq (s : State) : s.takeReset.argSeq = State.reset.argSeq := rfl
@[simp] theorem State.takeReset_argDlen (s : State) : s.takeReset.argDlen = State.reset.argDlen := rfl
@[simp] theorem State.takeReset_timeIn (s : State) : s.takeReset.timeIn = State.reset.timeIn := rfl
@[simp] theorem State.takeReset_timeCoarse (s : State) : s.takeReset.timeCoarse = State.reset.timeCoarse := rfl
@[simp] theorem State.takeReset_timeFine (s : State) : s.takeReset.timeFine = State.reset.timeFine := rfl
@[simp] theorem State.takeReset_phVersion (s : State) : s.takeReset.phVersion = State.reset.phVersion := rfl
@[simp] theorem State.takeReset_phType (s : State) : s.takeReset.phType = State.reset.phType := rfl
@[simp] theorem State.takeReset_phShf (s : State) : s.takeReset.phShf = State.reset.phShf := rfl
@[simp] theorem State.takeReset_phApid (s : State) : s.takeReset.phApid = State.reset.phApid := rfl
@[simp] theorem State.takeReset_phSeqf (s : State) : s.takeReset.phSeqf = State.reset.phSeqf := rfl
@[simp] theorem State.takeReset_phSeq (s : State) : s.takeReset.phSeq = State.reset.phSeq := rfl
@[simp] theorem State.takeReset_phDlen (s : State) : s.takeReset.phDlen = State.reset.phDlen := rfl
@[simp] theorem State.takeReset_phLength (s : State) : s.takeReset.phLength = State.reset.phLength := rfl
@[simp] theorem State.takeReset_crcRx (s : State) : s.takeReset.crcRx = State.reset.crcRx := rfl
@[simp] theorem State.takeReset_crcCalc (s : State) : s.takeReset.crcCalc = State.reset.crcCalc := rfl
@[simp] theorem State.takeReset_inLen (s : State) : s.takeReset.inLen = State.reset.inLen := rfl
@[simp] theorem State.takeReset_outLen (s : State) : s.takeReset.outLen = State.reset.outLen := rfl
@[simp] theorem State.takeReset_field (s : State) : s.takeReset.field = State.reset.field := rfl
@[simp] theorem State.takeReset_mem (s : State) : s.takeReset.mem = State.reset.mem := rfl
@[simp] theorem State.takeReset_resetAsserted (s : State) : s.takeReset.resetAsserted = true := rfl
@[simp] theorem State.takeReset_samples (s : State) : s.takeReset.samples = s.samples := rfl
@[simp] theorem State.takeReset_events (s : State) : s.takeReset.events = s.events := rfl
@[simp] theorem State.takeReset_response (s : State) : s.takeReset.response = State.reset.response := rfl

/-! reset -/

@[simp] theorem State.reset_ctrl : State.reset.ctrl = 5 := rfl
@[simp] theorem State.reset_err : State.reset.err = 0 := rfl
@[simp] theorem State.reset_done : State.reset.done = false := rfl
@[simp] theorem State.reset_result : State.reset.result = 0 := rfl
@[simp] theorem State.reset_crcAcc : State.reset.crcAcc = 0xFFFF := rfl
@[simp] theorem State.reset_argSubsys : State.reset.argSubsys = 0 := rfl
@[simp] theorem State.reset_argApid : State.reset.argApid = 0 := rfl
@[simp] theorem State.reset_argSeq : State.reset.argSeq = 0 := rfl
@[simp] theorem State.reset_argDlen : State.reset.argDlen = 0 := rfl
@[simp] theorem State.reset_timeIn : State.reset.timeIn = 0 := rfl
@[simp] theorem State.reset_timeCoarse : State.reset.timeCoarse = 0 := rfl
@[simp] theorem State.reset_timeFine : State.reset.timeFine = 0 := rfl
@[simp] theorem State.reset_phVersion : State.reset.phVersion = 0 := rfl
@[simp] theorem State.reset_phType : State.reset.phType = 0 := rfl
@[simp] theorem State.reset_phShf : State.reset.phShf = 0 := rfl
@[simp] theorem State.reset_phApid : State.reset.phApid = 0 := rfl
@[simp] theorem State.reset_phSeqf : State.reset.phSeqf = 0 := rfl
@[simp] theorem State.reset_phSeq : State.reset.phSeq = 0 := rfl
@[simp] theorem State.reset_phDlen : State.reset.phDlen = 0 := rfl
@[simp] theorem State.reset_phLength : State.reset.phLength = 0 := rfl
@[simp] theorem State.reset_crcRx : State.reset.crcRx = 0 := rfl
@[simp] theorem State.reset_crcCalc : State.reset.crcCalc = 0 := rfl
@[simp] theorem State.reset_inLen : State.reset.inLen = 0 := rfl
@[simp] theorem State.reset_outLen : State.reset.outLen = 0 := rfl
@[simp] theorem State.reset_field : State.reset.field = Vector.replicate Config.nField 0 := rfl
@[simp] theorem State.reset_mem : State.reset.mem = [] := rfl
@[simp] theorem State.reset_resetAsserted : State.reset.resetAsserted = false := rfl
@[simp] theorem State.reset_samples : State.reset.samples = 0 := rfl
@[simp] theorem State.reset_events : State.reset.events = [] := rfl
@[simp] theorem State.reset_response : State.reset.response = none := rfl

end Sys2Proof.Machine
end

