-- ==== Sys2Proof/Laws/Ops.lean ====
section
/-! SUPPORT. The shared operations of the commands: for each, everything it can answer, said once. -/

namespace Sys2Proof.Machine

/-! How a command ends. -/

theorem fail_eq_next {e : ErrCode} {s t : State} : fail e s = .next t ↔ t = s.raise e := by
  simp [fail, eq_comm]

theorem fail_eq_stopsWith (e : ErrCode) (s : State) : fail e s = stopsWith e.code s := rfl

theorem succeed_eq_next {v : Word} {u t : State} : succeed v u = .next t ↔ t = { u with result := v }.setStatus 0 := by
  simp [succeed, eq_comm]

theorem ErrCode.code_ne_zero (e : ErrCode) : e.code ≠ 0 := by cases e <;> decide

theorem ErrCode.code_le_nine (e : ErrCode) : e.code.toNat ≤ 9 := by cases e <;> decide

/-! A check. -/

theorem require_of_true {ok : Bool} (h : ok = true) (e : ErrCode) (s : State) (rest : Out) :
    require ok e s rest = rest := by simp [require, h]

theorem require_of_false {ok : Bool} (h : ok = false) (e : ErrCode) (s : State) (rest : Out) :
    require ok e s rest = stopsWith e.code s := by simp [require, h, fail_eq_stopsWith]

theorem require_eq_next {ok : Bool} {e : ErrCode} {s t : State} {rest : Out} :
    require ok e s rest = .next t ↔ (ok = true ∧ rest = .next t) ∨ (ok = false ∧ t = s.raise e) := by
  cases ok <;> simp [require, fail_eq_next]

/-! Reading the input. -/

/-- The input is answered as b exactly when the buffer holds b there. -/
theorem readInput_eq_some {s : State} {first count : Nat} {b : List Byte} :
    s.mem.readBytes (inBase + first) count = some b ↔ b.length = count ∧ Holds s (inBase + first) b :=
  Memory.readBytes_eq_some

theorem withInput_of_holds {s : State} {first count : Nat} {b : List Byte} (k : List Byte → Out) (hl : b.length = count)
    (h : Holds s (inBase + first) b) : withInput first count s k = k b := by
  simp [withInput, readInput_eq_some.mpr ⟨hl, h⟩]

/-- The whole input, where it is b. -/
theorem withInput_of_inputIs {s : State} {b : List Byte} (k : List Byte → Out) (h : InputIs s b) :
    withInput 0 s.inCount s k = k b :=
  withInput_of_holds k h.1.symm h.2.2

/-- A part of the input, where the input is b. -/
theorem withInput_part_of_inputIs {s : State} {b : List Byte} (first count : Nat) (k : List Byte → Out)
    (h : InputIs s b) (hc : first + count ≤ b.length) :
    withInput first count s k = k ((b.drop first).take count) := by
  refine withInput_of_holds k (by simp; omega) fun j hj => ?_
  simp only [List.length_take, List.length_drop] at hj
  rw [Nat.add_assoc, h.2.2 (first + j) (by omega)]
  simp

theorem withInput_eq_next {first count : Nat} {s t : State} {k : List Byte → Out} :
    withInput first count s k = .next t ↔
      ∃ b, s.mem.readBytes (inBase + first) count = some b ∧ k b = .next t := by
  unfold withInput
  split <;> simp [*]

/-- Written input is answered. -/
theorem withInput_of_written {s : State} {first count : Nat} (k : List Byte → Out) (h : InputWritten s)
    (hc : first + count ≤ 256) : ∃ b, b.length = count ∧ withInput first count s k = k b := by
  unfold withInput
  split
  · rename_i b hb; exact ⟨b, (readInput_eq_some.mp hb).1, rfl⟩
  · rename_i hb
    obtain ⟨j, hj, hr⟩ := Memory.readBytes_eq_none.mp hb
    have := h (first + j) (by omega)
    rw [← Nat.add_assoc, hr] at this
    cases this

/-! Writing the output. -/

/-- An output of at most 256 bytes is what OUT[0:OUT_LEN] then holds, and no other byte changes. -/
theorem outputs_putOutput (s : State) {b : List Byte} (h : b.length ≤ 256) : Outputs s (s.putOutput b) b := by
  refine ⟨⟨by simp; omega, fun k hk => ?_⟩, fun a ha => ?_⟩
  · exact Memory.read_writeBytes_at _ _ _ _ hk
  · exact Memory.read_writeBytes_outside _ _ _ _ ha

theorem putOutput_wf {s : State} {b : List Byte} (h : b.length ≤ 256) (hm : s.mem.wf = true) :
    (s.putOutput b).mem.wf = true :=
  Memory.wf_writeBytes (by decide) (by simp only [outBase, bufEnd]; omega) hm

/-! The directory. -/

theorem subsystemOfIndex_eq_some {n : Nat} {y : Subsystem} : subsystemOfIndex n = some y ↔ n = subsystemIndex y := by
  constructor
  · intro h
    unfold subsystemOfIndex at h
    split at h <;> cases h <;> rfl
  · rintro rfl
    cases y <;> rfl

theorem subsystemOfIndex_eq_none {n : Nat} : subsystemOfIndex n = none ↔ 6 < n := by
  constructor
  · intro h
    by_contra hn
    have : n = 0 ∨ n = 1 ∨ n = 2 ∨ n = 3 ∨ n = 4 ∨ n = 5 ∨ n = 6 := by omega
    rcases this with rfl | rfl | rfl | rfl | rfl | rfl | rfl <;> cases h
  · intro h
    cases hy : subsystemOfIndex n with
    | none => rfl
    | some y =>
      have := subsystemOfIndex_eq_some.mp hy
      cases y <;> simp [subsystemIndex] at this <;> omega

theorem subsysOf_eq_some {n : Nat} {y : Subsystem} : subsysOf n = some y ↔ n = subsystemIndex y + 1 := by
  constructor
  · intro h
    unfold subsysOf at h
    split at h <;> cases h <;> rfl
  · rintro rfl
    cases y <;> rfl

theorem subsystemIndex_le_six (y : Subsystem) : subsystemIndex y ≤ 6 := by cases y <;> decide

theorem apidMap_toNat (y : Subsystem) : (apidMap y).toNat = subsystemIndex y + 1 := by cases y <;> rfl

theorem subsysOf_eq_none {n : Nat} : subsysOf n = none ↔ n < 1 ∨ 7 < n := by
  constructor
  · intro h
    by_contra hn
    have : n = 1 ∨ n = 2 ∨ n = 3 ∨ n = 4 ∨ n = 5 ∨ n = 6 ∨ n = 7 := by omega
    rcases this with rfl | rfl | rfl | rfl | rfl | rfl | rfl <;> cases h
  · intro h
    cases hy : subsysOf n with
    | none => rfl
    | some y =>
      have h1 := subsysOf_eq_some.mp hy
      have h2 := subsystemIndex_le_six y
      omega

theorem withSubsystem_eq_next {w : Word} {s t : State} {k : Subsystem → Out} :
    withSubsystem w s k = .next t ↔
      (∃ y, w.toNat = subsystemIndex y ∧ k y = .next t) ∨ (6 < w.toNat ∧ t = s.raise .unknownSubsystem) := by
  unfold withSubsystem
  split
  · rename_i y hy
    have h1 := subsystemOfIndex_eq_some.mp hy
    constructor
    · intro h; exact .inl ⟨y, h1, h⟩
    · rintro (⟨z, hz, h⟩ | ⟨h, _⟩)
      · obtain rfl : y = z := Option.some.inj (hy.symm.trans (subsystemOfIndex_eq_some.mpr hz))
        exact h
      · have := subsystemOfIndex_eq_none.mpr h
        rw [hy] at this; cases this
  · rename_i hy
    rw [fail_eq_next]
    constructor
    · intro h; exact .inr ⟨subsystemOfIndex_eq_none.mp hy, h⟩
    · rintro (⟨z, hz, _⟩ | ⟨_, h⟩)
      · rw [subsystemOfIndex_eq_some.mpr hz] at hy; cases hy
      · exact h

theorem withSubsystem_of_index {w : Word} {y : Subsystem} (h : w.toNat = subsystemIndex y) (s : State)
    (k : Subsystem → Out) : withSubsystem w s k = k y := by
  simp [withSubsystem, subsystemOfIndex_eq_some.mpr h]

theorem withSubsystem_of_gt {w : Word} (h : 6 < w.toNat) (s : State) (k : Subsystem → Out) :
    withSubsystem w s k = stopsWith 1 s := by
  simp [withSubsystem, subsystemOfIndex_eq_none.mpr h, fail_eq_stopsWith, ErrCode.code]

theorem withApid_eq_next {n : Nat} {s t : State} {k : Subsystem → Out} :
    withApid n s k = .next t ↔
      (∃ y, n = subsystemIndex y + 1 ∧ k y = .next t) ∨ ((n < 1 ∨ 7 < n) ∧ t = s.raise .unknownApid) := by
  unfold withApid
  split
  · rename_i y hy
    have h1 := subsysOf_eq_some.mp hy
    constructor
    · intro h; exact .inl ⟨y, h1, h⟩
    · rintro (⟨z, hz, h⟩ | ⟨h, _⟩)
      · obtain rfl : y = z := Option.some.inj (hy.symm.trans (subsysOf_eq_some.mpr hz))
        exact h
      · have := subsysOf_eq_none.mpr h
        rw [hy] at this; cases this
  · rename_i hy
    rw [fail_eq_next]
    constructor
    · intro h; exact .inr ⟨subsysOf_eq_none.mp hy, h⟩
    · rintro (⟨z, hz, _⟩ | ⟨_, h⟩)
      · rw [subsysOf_eq_some.mpr hz] at hy; cases hy
      · exact h

theorem withApid_of_apid {n : Nat} {y : Subsystem} (h : n = subsystemIndex y + 1) (s : State) (k : Subsystem → Out) :
    withApid n s k = k y := by
  simp [withApid, subsysOf_eq_some.mpr h]

theorem withApid_of_none {n : Nat} (h : n < 1 ∨ 7 < n) (s : State) (k : Subsystem → Out) :
    withApid n s k = stopsWith 2 s := by
  simp [withApid, subsysOf_eq_none.mpr h, fail_eq_stopsWith, ErrCode.code]

/-- Every index 0..6 is some subsystem's. -/
theorem exists_subsystem {n : Nat} (h : n ≤ 6) : ∃ y, n = subsystemIndex y := by
  cases hy : subsystemOfIndex n with
  | some y => exact ⟨y, subsystemOfIndex_eq_some.mp hy⟩
  | none => have := subsystemOfIndex_eq_none.mp hy; omega

/-! The payload. -/

theorem withPayload_eq_next {y : Subsystem} {s t : State} {k : List Byte → Out} :
    withPayload y s k = .next t ↔
      (∃ p, encPayload y s.field = some p ∧ k p = .next t) ∨
      (encPayload y s.field = none ∧ t = s.raise .rangeError) := by
  unfold withPayload
  split <;> simp [*, fail_eq_next]

@[simp] theorem length_encField (t : FieldType) (v : Word) : (encField t v).length = fieldWidth t := by
  cases t <;> rfl

theorem length_encFields {ts : List FieldType} {vs : List Word} {p : List Byte} (h : encFields ts vs = some p) :
    p.length = (ts.map fieldWidth).sum := by
  induction ts generalizing vs p with
  | nil => cases vs <;> (cases h; rfl)
  | cons t ts ih =>
    cases vs with
    | nil => cases h
    | cons v vs =>
      simp only [encFields] at h
      split at h
      · split at h
        · rename_i q hq
          obtain rfl := Option.some.inj h
          simp [ih hq]
        · cases h
      · cases h

/-- A payload has its schema's length. -/
theorem length_encPayload {y : Subsystem} {field : Vector Word Config.nField} {p : List Byte}
    (h : encPayload y field = some p) : p.length = plen y := length_encFields h

theorem plen_le (y : Subsystem) : plen y ≤ 44 := by cases y <;> decide

/-! The packet. -/

@[simp] theorem length_packPh (a : BitVec 11) (q : BitVec 14) (d : Half) : (packPh a q d).length = 6 := rfl

theorem length_packetBody (y : Subsystem) (q : BitVec 14) (t : BitVec 24 × Byte) (p : List Byte) :
    (packetBody y q t p).length = 10 + p.length := by
  simp [packetBody]; omega

theorem length_packetOf (y : Subsystem) (q : BitVec 14) (t : BitVec 24 × Byte) (p : List Byte) :
    (packetOf y q t p).length = 12 + p.length := by
  simp [packetOf, length_packetBody]; omega

/-! Checks and outputs, as numbers. -/

theorem require_true {p : Prop} [Decidable p] (h : p) (e : ErrCode) (s : State) (rest : Out) :
  require (decide p) e s rest = rest := require_of_true (decide_eq_true h) _ _ _

theorem require_false {p : Prop} [Decidable p] (h : ¬ p) (e : ErrCode) (s : State) (rest : Out) :
  require (decide p) e s rest = stopsWith e.code s := require_of_false (decide_eq_false h) _ _ _

theorem require_inLenOk {s : State} (h : s.inLen.toNat ≤ 256) (rest : Out) : require s.inLenOk .rangeError s rest = rest :=
  require_of_true (s.inLenOk_iff.mpr h) _ _ _

theorem require_inLenOk_of_gt {s : State} (h : 256 < s.inLen.toNat) (rest : Out) :
    require s.inLenOk .rangeError s rest = stopsWith 8 s :=
  require_of_false (Bool.eq_false_iff.mpr fun h' => by have := s.inLenOk_iff.mp h'; omega) _ _ _

/-- A state whose memory and OUT_LEN are those of an output of at most 256 bytes holds that output. -/
theorem outputs_of {s t : State} {b : List Byte} (hm : t.mem = s.mem.writeBytes outBase b)
    (hl : t.outLen = BitVec.ofNat 9 b.length) (h : b.length ≤ 256) : Outputs s t b := by
  refine ⟨⟨by rw [hl]; simp; omega, fun k hk => ?_⟩, fun a ha => ?_⟩
  · rw [hm]; exact Memory.read_writeBytes_at _ _ _ _ hk
  · rw [hm]; exact Memory.read_writeBytes_outside _ _ _ _ ha

end Sys2Proof.Machine
end

