-- ==== Sys2Proof/Laws/Bus.lean ====
section
/-! SUPPORT. Bus accesses: which are accepted, and where the registers are. -/

namespace Sys2Proof.Machine

/-- The accepted accesses in arithmetic (20_memory.md R63). -/
theorem accepted_iff {off n : Nat} : accepted off n = true ↔
    (n = 4 ∧ off % 4 = 0 ∧ (off < 0x100 ∨ 0x300 ≤ off ∧ off < 0x400)) ∨ (n = 1 ∧ 0x100 ≤ off ∧ off < 0x300) := by
  simp only [accepted, Bool.and_eq_true, Bool.or_eq_true, decide_eq_true_eq, beq_iff_eq]
  omega

theorem accepted_inBuf {k : Nat} (h : k < 256) : accepted (inBase + k) 1 = true :=
  accepted_iff.mpr (.inr ⟨rfl, by simp only [inBase]; omega, by simp only [inBase]; omega⟩)

theorem accepted_outBuf {k : Nat} (h : k < 256) : accepted (outBase + k) 1 = true :=
  accepted_iff.mpr (.inr ⟨rfl, by simp only [outBase]; omega, by simp only [outBase]; omega⟩)

/-- The register map has each register at its offset (10_state.md R21). -/
@[simp] theorem Reg.ofOffset_offset (r : Reg) : Reg.ofOffset r.offset = some r := by
  cases r with
  | field i => revert i; decide
  | _ => rfl

theorem accepted_offset (r : Reg) : accepted r.offset 4 = true := by
  cases r with
  | field i => revert i; decide
  | _ => rfl

/-- The register map has nothing at the reserved words (10_state.md R21). -/
theorem Reg.ofOffset_reserved {off : Nat} (h : 0x098 ≤ off) : Reg.ofOffset off = none := by
  unfold Reg.ofOffset
  split <;> first | omega | (rw [dif_neg (by simp only [Config.nField]; omega)])

theorem Reg.offset_eq_cmd {r : Reg} (h : r.offset = cmdOffset) : r = .cmd := by
  have h1 := Reg.ofOffset_offset r
  rw [h] at h1
  exact (Option.some.inj h1).symm

/-- A step takes the next event off the list and handles it. -/
theorem step_of_event {s : State} {e : HostEvent} {rest : List HostEvent} (h : s.events = e :: rest) :
    step s = handle e { s with events := rest } := by
  simp [step, h]

/-- With reset released, a transaction is performed. -/
theorem step_of_access {s : State} {a : BusAccess} {rest : List HostEvent} (hr : s.resetAsserted = false)
    (h : s.events = .access a :: rest) : step s = access a { s with events := rest } := by
  simp [step, h, handle, hr]

/-! Several steps. -/

theorem steps_succ {s t : State} (k : Nat) (h : step s = .next t) : steps (k + 1) s = steps k t := by
  simp [steps, h]

theorem steps_add {k : Nat} (j : Nat) {s t : State} (h : steps k s = .next t) : steps (k + j) s = steps j t := by
  induction k generalizing s with
  | zero => cases h; simp
  | succ k ih =>
    cases hs : step s with
    | next u =>
      rw [steps_succ k hs] at h
      rw [show k + 1 + j = k + j + 1 by omega, steps_succ _ hs, ih h]
    | fault r => simp [steps, hs] at h
    | refused r => simp [steps, hs] at h

/-- The byte writes of LOADIN, run one by one (30_encoding.md R92). -/
theorem steps_loadBytes (b : List Byte) : ∀ (k : Nat) (s : State) (rest : List HostEvent), s.resetAsserted = false →
    k + b.length ≤ 256 →
    s.events = loadBytes k b ++ rest →
    steps b.length s = .next
      { s with mem := s.mem.writeBytes (inBase + k) b, events := rest
               response := if b = [] then s.response else some .done } := by
  induction b with
  | nil => intro k s rest _ _ he; simp [loadBytes] at he; subst he; simp [steps, Memory.writeBytes]
  | cons v b ih =>
    intro k s rest hr hl he
    simp only [List.length_cons] at hl
    have hk : k < 256 := by omega
    have hlt : inBase + k < outBase := by simp only [inBase, outBase]; omega
    have hs : step s = .next
        { s with mem := s.mem.write (inBase + k) v, events := loadBytes (k + 1) b ++ rest, response := some .done } := by
      rw [step_of_access (a := .write (inBase + k) 1 (v.setWidth 32)) hr (by rw [he]; rfl)]
      simp [access, memWrite, accepted_inBuf hk, writeByteAt, hlt]
    rw [List.length_cons, steps_succ _ hs]
    rw [ih (k+1) _ rest (by exact hr) (by omega) rfl]
    simp [Memory.writeBytes, Nat.add_assoc]

end Sys2Proof.Machine
end

