-- ==== Sys2Proof/Laws/Checksum.lean ====
section
/-! SUPPORT. The checksum: one byte's step is the rule's, and no step loses information. -/

namespace Sys2Proof.Machine

/-- A shift step is the rule's, mask and all (40_checksum.md R100). -/
theorem crcShift_toNat (c : Half) : (crcShift c).toNat = Rule.crcStep c.toNat := by
  have hb : c.getLsbD 15 = decide (c.toNat / 2 ^ 15 % 2 = 1) := by
    rw [BitVec.getLsbD, Nat.testBit_eq_decide_div_mod_eq]
  unfold crcShift Rule.crcStep
  rw [hb]
  simp only [decide_eq_true_eq]
  split
  · rw [BitVec.toNat_xor, BitVec.toNat_shiftLeft, show (0xFFFF : Nat) = 2 ^ 16 - 1 from rfl,
      Nat.and_two_pow_sub_one_eq_mod, Nat.xor_mod_two_pow]
    rfl
  · rw [BitVec.toNat_shiftLeft, show (0xFFFF : Nat) = 2 ^ 16 - 1 from rfl, Nat.and_two_pow_sub_one_eq_mod]

/-- A byte's step is the rule's (40_checksum.md R100). -/
theorem crcByte_toNat (c : Half) (x : Byte) : (crcByte c x).toNat = Rule.crcSteps 8 (c.toNat ^^^ (x.toNat <<< 8)) := by
  have hx := x.isLt
  have : (c ^^^ (x.setWidth 16 <<< 8)).toNat = c.toNat ^^^ (x.toNat <<< 8) := by
    rw [BitVec.toNat_xor, BitVec.toNat_shiftLeft, BitVec.toNat_setWidth, Nat.shiftLeft_eq, Nat.mod_eq_of_lt (a :=
      x.toNat) (by omega), Nat.shiftLeft_eq, Nat.mod_eq_of_lt (by omega)]
  simp [crcByte, crcShift8, Rule.crcSteps, crcShift_toNat, this]

/-- A shift step loses no bit: bit 15 goes to bit 0, the others move up. -/
theorem crcShift_inj {a b : Half} (h : crcShift a = crcShift b) : a = b := by
  have h0 : ∀ c : Half, (crcShift c).getLsbD 0 = c.getLsbD 15 := by
    intro c; unfold crcShift; cases hc : c.getLsbD 15 <;> simp
  have h15 : a.getLsbD 15 = b.getLsbD 15 := by rw [← h0, ← h0, h]
  have hs : a <<< 1 = b <<< 1 := by
    unfold crcShift at h
    rw [h15] at h
    cases hb : b.getLsbD 15 <;> simp only [hb, if_true] at h
    · simpa using h
    · exact BitVec.xor_left_inj _ |>.mp h
  apply BitVec.eq_of_getLsbD_eq
  intro i hi
  by_cases h : i = 15
  · subst h; exact h15
  · have := congrArg (fun v => v.getLsbD (i+1)) hs
    have h2 : i + 1 < 16 := by omega
    simp only [BitVec.getLsbD_shiftLeft, h2, decide_true, Bool.true_and] at this
    simpa using this

/-- Different checksums stay different under the same byte. -/
theorem crcByte_inj {a b : Half} {x : Byte} (h : crcByte a x = crcByte b x) : a = b := by
  unfold crcByte crcShift8 at h
  have := crcShift_inj (crcShift_inj (crcShift_inj (crcShift_inj (crcShift_inj (crcShift_inj (crcShift_inj (crcShift_inj h)))))))
  exact BitVec.xor_left_inj _ |>.mp this

/-- Eight shift steps move a low byte into the high byte: bit 15 is clear at each of them. -/
theorem crcShift8_low : ∀ y : Byte, crcShift8 (y.setWidth 16) = y.setWidth 16 <<< 8 := by decide +kernel

/-- A 16-bit word is its high byte moved up, XORed with its low byte. -/
theorem half_split (c : Half) : c = ((c.extractLsb' 8 8).setWidth 16 <<< 8) ^^^ (c.extractLsb' 0 8).setWidth 16 := by
  apply BitVec.eq_of_getLsbD_eq
  intro i hi
  simp only [BitVec.getLsbD_xor, BitVec.getLsbD_shiftLeft, BitVec.getLsbD_setWidth, BitVec.getLsbD_extractLsb']
  by_cases h : i < 8
  · simp [h]; omega
  · simp [h, hi, show 8 + (i - 8) = i by omega, show i - 8 < 8 by omega, show i - 8 < 16 by omega]

/-- The received trailer as a number (40_checksum.md R105). -/
theorem trailerOf_toNat (b : List Byte) (h : 2 ≤ b.length) :
    (trailerOf b.length b).toNat = Rule.wordAt b (b.length - 2) := by
  have h2 : (b.drop (b.length - 2)).length = 2 := by simp; omega
  have := Rule.beNat_lt (b.drop (b.length - 2))
  rw [h2] at this
  unfold trailerOf Rule.wordAt
  rw [unbe_eq_beNat, BitVec.toNat_ofNat, Nat.mod_eq_of_lt (by omega), List.take_of_length_le (by omega)]

end Sys2Proof.Machine
end

