-- ==== Sys2Proof/Laws/Codecs.lean ====
section
/-! SUPPORT. The time code and the primary header as numbers: each of the machine's bit fields is a quotient or remainder of
the word it lies in. -/

namespace Sys2Proof.Machine

/-- (coarse << 8) OR fine as a sum (30_encoding.md R82). -/
theorem timeWord_toNat (t : BitVec 24 × Byte) : (timeWord t).toNat = t.1.toNat * 256 + t.2.toNat := by
  have := t.2.isLt
  unfold timeWord
  rw [BitVec.toNat_append, Nat.shiftLeft_eq, Nat.mul_comm, ← Nat.two_pow_add_eq_or_of_lt this, Nat.mul_comm]

/-- The time in a secondary header of four bytes (41_timecode.md R123). -/
theorem timeOfBytes_eq (b : List Byte) (h : b.length = 4) :
    timeOfBytes b = (BitVec.ofNat 24 (Rule.beNat (b.take 3)), BitVec.ofNat 8 (Rule.beNat (b.drop 3))) := by
  match b, h with
  | [x, y, z, w], _ => simp [timeOfBytes, unbe_eq_beNat, Rule.beNat]

/-- The APID lies below the fixed bits of the first header word, so OR is a sum (43_primary_header.md R160). -/
theorem packedApid_toNat (a : BitVec 11) : ((0x0800 : Half) ||| a.setWidth 16).toNat = 0x0800 + a.toNat := by
  have := a.isLt
  rw [BitVec.toNat_or, show (0x0800 : Half).toNat = 2^11 * 1 from rfl, ← Nat.two_pow_add_eq_or_of_lt (by simp; omega)]
  simp; omega

/-- The sequence count lies below the sequence flags (43_primary_header.md R160). -/
theorem packedSeq_toNat (a : BitVec 14) : ((0xC000 : Half) ||| a.setWidth 16).toNat = 0xC000 + a.toNat := by
  have := a.isLt
  rw [BitVec.toNat_or, show (0xC000 : Half).toNat = 2^14 * 3 from rfl, ← Nat.two_pow_add_eq_or_of_lt (by simp; omega)]
  simp; omega

/-- pack_ph in numbers (43_primary_header.md R160). -/
theorem packPh_eq_header (a : BitVec 11) (q : BitVec 14) (d : Half) :
    packPh a q d = Rule.header a.toNat q.toNat d.toNat := by
  unfold packPh Rule.header
  rw [be16_eq_beBytes, be16_eq_beBytes, be16_eq_beBytes, packedApid_toNat, packedSeq_toNat]

/-- A header word as a number (43_primary_header.md R161). -/
theorem headerWord_toNat (h : List Byte) (k : Nat) : (headerWord k h).toNat = Rule.wordAt h (2 * k) := by
  unfold headerWord Rule.wordAt
  rw [unbe_eq_beNat, BitVec.toNat_ofNat]
  refine Nat.mod_eq_of_lt (lt_of_lt_of_le (Rule.beNat_lt _) ?_)
  calc 256 ^ _ ≤ 256 ^ 2 := Nat.pow_le_pow_right (by omega) (by simp)
    _ = 2 ^ 16 := by norm_num

/-- The eight header registers as quotients and remainders of the three words (30_encoding.md R87). -/
theorem putHeader_eq (s : State) (w1 w2 w3 : Half) : s.putHeader w1 w2 w3 =
   { s with phVersion := BitVec.ofNat 3 (w1.toNat / 8192)
            phType := BitVec.ofNat 1 (w1.toNat / 4096 % 2)
            phShf := BitVec.ofNat 1 (w1.toNat / 2048 % 2)
            phApid := BitVec.ofNat 11 (w1.toNat % 2048)
            phSeqf := BitVec.ofNat 2 (w2.toNat / 16384)
            phSeq := BitVec.ofNat 14 (w2.toNat % 16384)
            phDlen := BitVec.ofNat 16 (w3.toNat)
            phLength := BitVec.ofNat 17 (w3.toNat + 1) } := by
  simp only [State.putHeader, versionOf, typeOf, shfOf, apidOf, seqfOf, seqOf, State.mk.injEq, true_and, and_true]
  refine ⟨?_, ?_, ?_, ?_, ?_, ?_, ?_, ?_⟩ <;> (apply BitVec.eq_of_toNat_eq; simp [BitVec.extractLsb'_toNat,
    Nat.shiftRight_eq_div_pow])

/-- The three words of a header, whatever follows it. -/
theorem wordAt_header (a q d : Nat) (x : List Byte) :
    Rule.wordAt (Rule.header a q d ++ x) 0 = (0x0800 + a) % 65536 ∧ Rule.wordAt (Rule.header a q d ++ x) 2 = (0xC000 + q) % 65536 ∧ Rule.wordAt (Rule.header a q d ++ x) 4 = d % 65536 := by
  refine ⟨?_, ?_, ?_⟩ <;> simp [Rule.wordAt, Rule.header, Rule.beBytes, Rule.beNat] <;> omega

end Sys2Proof.Machine
end

