-- ==== Sys2Proof/Laws/Commands.lean ====
section
/-! SUPPORT. Everything a command can do, said once: it raises one of its error codes, or it commits its own effect. Every
whole-machine claim is a case analysis over this. -/

namespace Sys2Proof.Machine

/-- The whole input was read as b. -/
abbrev ReadsInput (s : State) (b : List Byte) : Prop :=
  s.inLenOk = true ∧ s.mem.readBytes inBase s.inCount = some b

/-- What command i commits from state s on success, before STATUS and RESULT: the staged state u and the scalar result v. -/
def Effect (s : State) (v : Word) (u : State) : Instr → Prop
  | .crcInit => v = crcInitial.setWidth 32 ∧ u = { s with crcAcc := crcInitial }
  | .crcFeed => ∃ b, ReadsInput s b ∧
      v = (crcUpdate s.crcAcc b).setWidth 32 ∧ u = { s with crcAcc := crcUpdate s.crcAcc b }
  | .crcCompute => ∃ b, ReadsInput s b ∧ v = (crc16 b).setWidth 32 ∧ u = { s with crcCalc := crc16 b }
  | .crcAppend => ∃ b, ReadsInput s b ∧ s.inCount + 2 ≤ Config.outCap ∧
      v = (crc16 b).setWidth 32 ∧ u = { s with crcCalc := crc16 b }.putOutput (b ++ be16 (crc16 b))
  | .crcVerify => ∃ b, ReadsInput s b ∧ 2 ≤ s.inCount ∧ trailerOf s.inCount b = bodyCrc s.inCount b ∧
      v = (bodyCrc s.inCount b).setWidth 32 ∧
      u = { s with crcRx := trailerOf s.inCount b, crcCalc := bodyCrc s.inCount b }
  | .timeEncode => v = timeWord (sampleTime s) ∧
      u = ((s.sampleTaken).putTime (sampleTime s)).putOutput (secondaryHeader (sampleTime s))
  | .timeDecode => ∃ b, s.inLenOk = true ∧ s.inCount = 4 ∧ s.mem.readBytes inBase 4 = some b ∧
      v = timeWord (timeOfBytes b) ∧ u = s.putTime (timeOfBytes b)
  | .dirApidFor => ∃ y, s.argSubsys.toNat = subsystemIndex y ∧ v = (apidMap y).setWidth 32 ∧ u = s
  | .dirSubsysFor => ∃ y, s.argApid.toNat = subsystemIndex y + 1 ∧ v = BitVec.ofNat 32 (subsystemIndex y) ∧ u = s
  | .dirCount => v = BitVec.ofNat 32 Config.nSub ∧ u = s
  | .phEncode => s.argApid.toNat ≤ 0x7FF ∧ s.argSeq.toNat ≤ 0x3FFF ∧ s.argDlen.toNat ≤ 0xFFFF ∧ v = 6 ∧
      u = s.putOutput (packPh (s.argApid.setWidth 11) (s.argSeq.setWidth 14) (s.argDlen.setWidth 16))
  | .phDecode => ∃ h, s.inLenOk = true ∧ 6 ≤ s.inCount ∧ s.mem.readBytes inBase 6 = some h ∧
      declaredTotal (headerWord 2 h) ≤ s.inCount ∧ v = BitVec.ofNat 32 (declaredTotal (headerWord 2 h)) ∧
      u = s.putHeader (headerWord 0 h) (headerWord 1 h) (headerWord 2 h)
  | .plEncode => ∃ y p, s.argSubsys.toNat = subsystemIndex y ∧ encPayload y s.field = some p ∧
      v = BitVec.ofNat 32 (plen y) ∧ u = s.putOutput p
  | .plDecode => ∃ y p, ReadsInput s p ∧ s.argSubsys.toNat = subsystemIndex y ∧ s.inCount = plen y ∧
      v = BitVec.ofNat 32 (nf y) ∧ u = { s with field := decPayload y p }
  | .pktAssemble => ∃ y p, s.argSubsys.toNat = subsystemIndex y ∧ s.argSeq.toNat ≤ 0x3FFF ∧
      encPayload y s.field = some p ∧ v = BitVec.ofNat 32 (12 + plen y) ∧
      u = { (s.sampleTaken).putTime (sampleTime s) with
              crcCalc := crc16 (packetBody y (s.argSeq.setWidth 14) (sampleTime s) p) }.putOutput
            (packetOf y (s.argSeq.setWidth 14) (sampleTime s) p)
  | .pktParse => ∃ h b y, ReadsInput s b ∧ 6 ≤ s.inCount ∧ s.mem.readBytes inBase 6 = some h ∧
      (s.hdrChk = true → fixedFieldsOk (headerWord 0 h) (headerWord 1 h) = true) ∧
      (apidOf (headerWord 0 h)).toNat = subsystemIndex y + 1 ∧
      (headerWord 2 h).toNat + 1 = 4 + plen y ∧ s.inCount = declaredTotal (headerWord 2 h) ∧
      (s.crcChk = true → trailerOf s.inCount b = bodyCrc s.inCount b) ∧
      v = BitVec.ofNat 32 (subsystemIndex y) ∧
      u = { (s.putHeader (headerWord 0 h) (headerWord 1 h) (headerWord 2 h)).putTime (timeOfBytes (b.drop 6)) with
              field := decPayload y ((b.drop 10).take (plen y))
              crcRx := trailerOf s.inCount b
              crcCalc := bodyCrc s.inCount b }

/-- A command that answers a next state raised one of its errors, or committed its effect. -/
theorem exec_cases {i : Instr} {s t : State} (h : exec i s = .next t) :
    (∃ e : ErrCode, e.code ∈ codesOf i ∧ t = s.raise e) ∨
    (∃ v u, Effect s v u i ∧ t = { u with result := v }.setStatus 0) := by
  have ok : ∀ {v u}, Effect s v u i → succeed v u = .next t →
      (∃ e : ErrCode, e.code ∈ codesOf i ∧ t = s.raise e) ∨
      (∃ v u, Effect s v u i ∧ t = { u with result := v }.setStatus 0) :=
    fun he hs => .inr ⟨_, _, he, succeed_eq_next.mp hs⟩
  have bad : ∀ {e : ErrCode}, e.code ∈ codesOf i → t = s.raise e →
      (∃ e : ErrCode, e.code ∈ codesOf i ∧ t = s.raise e) ∨
      (∃ v u, Effect s v u i ∧ t = { u with result := v }.setStatus 0) :=
    fun he hs => .inl ⟨_, he, hs⟩
  cases i with
  | crcInit => exact ok ⟨rfl, rfl⟩ h
  | crcFeed =>
    obtain ⟨h1, h⟩ | ⟨_, h⟩ := require_eq_next.mp h
    · obtain ⟨b, hb, h⟩ := withInput_eq_next.mp h
      exact ok ⟨b, ⟨h1, hb⟩, rfl, rfl⟩ h
    · exact bad (by decide) h
  | crcCompute =>
    obtain ⟨h1, h⟩ | ⟨_, h⟩ := require_eq_next.mp h
    · obtain ⟨b, hb, h⟩ := withInput_eq_next.mp h
      exact ok ⟨b, ⟨h1, hb⟩, rfl, rfl⟩ h
    · exact bad (by decide) h
  | crcAppend =>
    obtain ⟨h1, h⟩ | ⟨_, h⟩ := require_eq_next.mp h
    · obtain ⟨h2, h⟩ | ⟨_, h⟩ := require_eq_next.mp h
      · obtain ⟨b, hb, h⟩ := withInput_eq_next.mp h
        exact ok ⟨b, ⟨h1, hb⟩, of_decide_eq_true h2, rfl, rfl⟩ h
      · exact bad (by decide) h
    · exact bad (by decide) h
  | crcVerify =>
    obtain ⟨h1, h⟩ | ⟨_, h⟩ := require_eq_next.mp h
    · obtain ⟨h2, h⟩ | ⟨_, h⟩ := require_eq_next.mp h
      · obtain ⟨b, hb, h⟩ := withInput_eq_next.mp h
        obtain ⟨h3, h⟩ | ⟨_, h⟩ := require_eq_next.mp h
        · exact ok ⟨b, ⟨h1, hb⟩, of_decide_eq_true h2, eq_of_beq h3, rfl, rfl⟩ h
        · exact bad (by decide) h
      · exact bad (by decide) h
    · exact bad (by decide) h
  | timeEncode => exact ok ⟨rfl, rfl⟩ h
  | timeDecode =>
    obtain ⟨h1, h⟩ | ⟨_, h⟩ := require_eq_next.mp h
    · obtain ⟨h2, h⟩ | ⟨_, h⟩ := require_eq_next.mp h
      · obtain ⟨b, hb, h⟩ := withInput_eq_next.mp h
        exact ok ⟨b, h1, eq_of_beq h2, hb, rfl, rfl⟩ h
      · exact bad (by decide) h
    · exact bad (by decide) h
  | dirApidFor =>
    obtain ⟨y, hy, h⟩ | ⟨_, h⟩ := withSubsystem_eq_next.mp h
    · exact ok ⟨y, hy, rfl, rfl⟩ h
    · exact bad (by decide) h
  | dirSubsysFor =>
    obtain ⟨y, hy, h⟩ | ⟨_, h⟩ := withApid_eq_next.mp h
    · exact ok ⟨y, hy, rfl, rfl⟩ h
    · exact bad (by decide) h
  | dirCount => exact ok ⟨rfl, rfl⟩ h
  | phEncode =>
    obtain ⟨h1, h⟩ | ⟨_, h⟩ := require_eq_next.mp h
    · obtain ⟨h2, h⟩ | ⟨_, h⟩ := require_eq_next.mp h
      · obtain ⟨h3, h⟩ | ⟨_, h⟩ := require_eq_next.mp h
        · exact ok ⟨of_decide_eq_true h1, of_decide_eq_true h2, of_decide_eq_true h3, rfl, rfl⟩ h
        · exact bad (by decide) h
      · exact bad (by decide) h
    · exact bad (by decide) h
  | phDecode =>
    obtain ⟨h1, h⟩ | ⟨_, h⟩ := require_eq_next.mp h
    · obtain ⟨h2, h⟩ | ⟨_, h⟩ := require_eq_next.mp h
      · obtain ⟨b, hb, h⟩ := withInput_eq_next.mp h
        obtain ⟨h3, h⟩ | ⟨_, h⟩ := require_eq_next.mp h
        · exact ok ⟨b, h1, of_decide_eq_true h2, hb, of_decide_eq_true h3, rfl, rfl⟩ h
        · exact bad (by decide) h
      · exact bad (by decide) h
    · exact bad (by decide) h
  | plEncode =>
    obtain ⟨y, hy, h⟩ | ⟨_, h⟩ := withSubsystem_eq_next.mp h
    · obtain ⟨p, hp, h⟩ | ⟨_, h⟩ := withPayload_eq_next.mp h
      · exact ok ⟨y, p, hy, hp, rfl, rfl⟩ h
      · exact bad (by decide) h
    · exact bad (by decide) h
  | plDecode =>
    obtain ⟨h1, h⟩ | ⟨_, h⟩ := require_eq_next.mp h
    · obtain ⟨y, hy, h⟩ | ⟨_, h⟩ := withSubsystem_eq_next.mp h
      · obtain ⟨h2, h⟩ | ⟨_, h⟩ := require_eq_next.mp h
        · obtain ⟨p, hp, h⟩ := withInput_eq_next.mp h
          exact ok ⟨y, p, ⟨h1, hp⟩, hy, eq_of_beq h2, rfl, rfl⟩ h
        · exact bad (by decide) h
      · exact bad (by decide) h
    · exact bad (by decide) h
  | pktAssemble =>
    obtain ⟨y, hy, h⟩ | ⟨_, h⟩ := withSubsystem_eq_next.mp h
    · obtain ⟨h1, h⟩ | ⟨_, h⟩ := require_eq_next.mp h
      · obtain ⟨p, hp, h⟩ | ⟨_, h⟩ := withPayload_eq_next.mp h
        · exact ok ⟨y, p, hy, of_decide_eq_true h1, hp, rfl, rfl⟩ h
        · exact bad (by decide) h
      · exact bad (by decide) h
    · exact bad (by decide) h
  | pktParse =>
    obtain ⟨h1, h⟩ | ⟨_, h⟩ := require_eq_next.mp h
    · obtain ⟨h2, h⟩ | ⟨_, h⟩ := require_eq_next.mp h
      · obtain ⟨w, hw, h⟩ := withInput_eq_next.mp h
        obtain ⟨h3, h⟩ | ⟨_, h⟩ := require_eq_next.mp h
        · obtain ⟨y, hy, h⟩ | ⟨_, h⟩ := withApid_eq_next.mp h
          · obtain ⟨h4, h⟩ | ⟨_, h⟩ := require_eq_next.mp h
            · obtain ⟨h5, h⟩ | ⟨_, h⟩ := require_eq_next.mp h
              · obtain ⟨h6, h⟩ | ⟨_, h⟩ := require_eq_next.mp h
                · obtain ⟨b, hb, h⟩ := withInput_eq_next.mp h
                  obtain ⟨h7, h⟩ | ⟨_, h⟩ := require_eq_next.mp h
                  · refine ok ⟨w, b, y, ⟨h1, hb⟩, of_decide_eq_true h2, hw, ?_, hy, eq_of_beq h5, eq_of_beq h6, ?_,
                      rfl, rfl⟩ h
                    · intro hc; simpa [hc] using h3
                    · intro hc; simpa [hc] using h7
                  · exact bad (by decide) h
                · exact bad (by decide) h
              · exact bad (by decide) h
            · exact bad (by decide) h
          · exact bad (by decide) h
        · exact bad (by decide) h
      · exact bad (by decide) h
    · exact bad (by decide) h

/-- What a command's effect does to the memory and OUT_LEN: nothing, or one output of at most 256 bytes. -/
theorem effect_memory {s u : State} {v : Word} {i : Instr} (h : Effect s v u i) :
    (writesOutput i = false ∧ u.mem = s.mem ∧ u.outLen = s.outLen) ∨
    (writesOutput i = true ∧ ∃ b,
      b.length ≤ 256 ∧ u.mem = s.mem.writeBytes outBase b ∧ u.outLen = BitVec.ofNat 9 b.length) := by
  cases i <;> simp only [Effect] at h
  case crcInit => obtain ⟨_, rfl⟩ := h; exact .inl ⟨rfl, rfl, rfl⟩
  case crcFeed => obtain ⟨_, _, _, rfl⟩ := h; exact .inl ⟨rfl, rfl, rfl⟩
  case crcCompute => obtain ⟨_, _, _, rfl⟩ := h; exact .inl ⟨rfl, rfl, rfl⟩
  case crcAppend =>
    obtain ⟨b, hb, h2, _, rfl⟩ := h
    refine .inr ⟨rfl, _, ?_, rfl, rfl⟩
    have := (Memory.readBytes_eq_some.mp hb.2).1
    simp only [Config.outCap] at h2
    simp; omega
  case crcVerify => obtain ⟨_, _, _, _, _, rfl⟩ := h; exact .inl ⟨rfl, rfl, rfl⟩
  case timeEncode => obtain ⟨_, rfl⟩ := h; exact .inr ⟨rfl, _, by simp, by simp, rfl⟩
  case timeDecode => obtain ⟨_, _, _, _, _, rfl⟩ := h; exact .inl ⟨rfl, rfl, rfl⟩
  case dirApidFor => obtain ⟨_, _, _, rfl⟩ := h; exact .inl ⟨rfl, rfl, rfl⟩
  case dirSubsysFor => obtain ⟨_, _, _, rfl⟩ := h; exact .inl ⟨rfl, rfl, rfl⟩
  case dirCount => obtain ⟨_, rfl⟩ := h; exact .inl ⟨rfl, rfl, rfl⟩
  case phEncode => obtain ⟨_, _, _, _, rfl⟩ := h; exact .inr ⟨rfl, _, by simp, rfl, rfl⟩
  case phDecode => obtain ⟨_, _, _, _, _, _, rfl⟩ := h; exact .inl ⟨rfl, rfl, rfl⟩
  case plEncode =>
    obtain ⟨y, p, _, hp, _, rfl⟩ := h
    exact .inr ⟨rfl, p, by have := plen_le y; rw [length_encPayload hp]; omega, rfl, rfl⟩
  case plDecode => obtain ⟨_, _, _, _, _, _, rfl⟩ := h; exact .inl ⟨rfl, rfl, rfl⟩
  case pktAssemble =>
    obtain ⟨y, p, _, _, hp, _, rfl⟩ := h
    exact .inr ⟨rfl, _, by have := plen_le y; rw [length_packetOf, length_encPayload hp]; omega, by simp, rfl⟩
  case pktParse => obtain ⟨_, _, _, _, _, _, _, _, _, _, _, _, rfl⟩ := h; exact .inl ⟨rfl, rfl, rfl⟩

end Sys2Proof.Machine
end

