-- ==== Sys2Proof/Laws/Encoding.lean ====
section
/-! SUPPORT. A command word and its fields. -/

namespace Sys2Proof

/-- The three fields make up the whole word: no bit of a word is outside them (30_encoding.md R80). -/
theorem Cmd32.toWord_ofWord (w : Word) : (Cmd32.ofWord w).toWord = w := by
  apply BitVec.eq_of_getLsbD_eq
  intro i hi
  show (w.extractLsb' 8 24 ++ w.extractLsb' 4 4 ++ w.extractLsb' 0 4 : BitVec (24 + 4 + 4)).getLsbD i = _
  simp only [BitVec.getLsbD_append, BitVec.getLsbD_extractLsb']
  by_cases h1 : i < 4
  · simp [h1]
  · by_cases h2 : i - 4 < 4
    · simp only [h1, h2, if_true, if_false, decide_true, Bool.true_and]; congr 1; omega
    · simp only [h1, h2, if_false, show i - 4 - 4 < 24 by omega, decide_true, Bool.true_and]; congr 1; omega

/-- A command found in the map sits at its own family and function. -/
theorem commandAt_eq_some {fam fn : Nat} {i : Instr} (h : commandAt fam fn = some i) :
    fam = (Cmd32.ofWord (encode i)).fam.toNat ∧ fn = (Cmd32.ofWord (encode i)).fn.toNat := by
  unfold commandAt at h
  split at h <;> cases h <;> exact ⟨rfl, rfl⟩

end Sys2Proof
end

