-- ==== Sys2Proof/Laws/Payload.lean ====
section
/-! SUPPORT. The field codecs over any list of field types: what they write, what they read, and that they invert each
other. -/

namespace Sys2Proof.Machine

theorem fieldWidth_eq (t : FieldType) : fieldWidth t = Rule.width t := by cases t <;> rfl

theorem fits_iff (t : FieldType) (n : Nat) (v : Word) : fits t v = true ↔ Rule.Fits (t, n) v := by
  simp [fits, Rule.Fits, fieldWidth_eq]

/-- A field that fits is written as its big-endian bytes (44_payload_mux.md R182). -/
theorem encField_eq (t : FieldType) (v : Word) (h : fits t v = true) :
    encField t v = Rule.beBytes (Rule.width t) v.toNat := by
  cases t
  · exact be32_eq_beBytes v
  · have : v.toNat < 2 ^ 8 := by simpa [fits, fieldWidth] using h
    simp [encField, Rule.beBytes, Rule.width]
  · have h' : v.toNat < 2 ^ 16 := (by simpa [fits] using h : v.toNat < 2 ^ (8 * fieldWidth .u16))
    simp only [encField, be16_eq_beBytes, Rule.width, BitVec.toNat_setWidth]
    rw [Nat.mod_eq_of_lt h']
  · exact be32_eq_beBytes v

/-- The fields are written in order exactly when all of them fit (44_payload_mux.md R185). -/
theorem encFields_cases (l : List (FieldType × Nat)) : ∀ (vs : List Word), l.length ≤ vs.length →
    encFields (l.map Prod.fst) vs =
      if ∀ x ∈ l.zip vs, Rule.Fits x.1 x.2 then some ((l.zip vs).flatMap fun x => Rule.beBytes (Rule.width x.1.1) x.2.toNat) else none := by
  induction l with
  | nil => intro vs _; cases vs <;> simp [encFields]
  | cons f l ih =>
    intro vs hl
    cases vs with
    | nil => simp at hl
    | cons v vs =>
      obtain ⟨t, n⟩ := f
      simp only [List.map_cons, encFields]
      rw [ih vs (by simpa using hl)]
      by_cases h1 : fits t v = true
      · have h1' := (fits_iff t n v).mp h1
        rw [if_pos h1]
        by_cases h2 : ∀ x ∈ l.zip vs, Rule.Fits x.1 x.2
        · rw [if_pos h2, if_pos (by simpa [h1'] using fun a b c h => h2 ((a,b),c) h)]
          simp [encField_eq _ _ h1]
        · rw [if_neg h2, if_neg]
          intro h; exact h2 fun x hx => h x (by simp [hx])
      · rw [if_neg h1, if_neg]
        intro h; exact h1 ((fits_iff t n v).mpr (h ((t, n), v) (by simp)))

/-- Field i is read at the sum of the widths before it (44_payload_mux.md R181, R186). -/
theorem decFields_getD (ts : List FieldType) : ∀ (b : List Byte) (i : Nat),
    (decFields ts b).getD i 0 = if h :
      i < ts.length then BitVec.ofNat 32 (Rule.beNat ((b.drop (((ts.take i).map fieldWidth).sum)).take (fieldWidth ts[i]))) else 0 := by
  induction ts with
  | nil => intro b i; simp [decFields]
  | cons t ts ih =>
    intro b i
    cases i with
    | zero => simp [decFields, decField, unbe_eq_beNat]
    | succ i =>
      simp only [decFields, List.getD_cons_succ]
      rw [ih]
      simp [List.drop_drop]

/-- Reading written fields gives them back (44_payload_mux.md R189). -/
theorem decFields_encFields (l : List FieldType) : ∀ (vs : List Word) (p : List Byte), encFields l vs = some p →
    decFields l p = vs.take l.length := by
  induction l with
  | nil => intro vs p h; simp [decFields]
  | cons t ts ih =>
    intro vs p h
    cases vs with
    | nil => cases h
    | cons v vs =>
      simp only [encFields] at h
      split at h
      · rename_i hf
        split at h
        · rename_i q hq
          obtain rfl := Option.some.inj h
          have hlen := length_encField t v
          simp only [decFields, List.length_cons, List.take_succ_cons]
          rw [List.take_append_of_le_length (by omega), List.drop_append_of_le_length (by omega),
            List.drop_of_length_le (l := encField t v) (by omega), List.take_of_length_le (by omega), List.nil_append,
            ih _ _ hq]
          congr 1
          rw [decField, unbe_eq_beNat, encField_eq t v hf, Rule.beNat_beBytes]
          apply BitVec.eq_of_toNat_eq
          have := v.isLt
          have h2 : v.toNat < 256 ^ Rule.width t := by
            cases t
            · simp [Rule.width]; omega
            · have : v.toNat < 2 ^ (8 * fieldWidth .u8) := by simpa [fits] using hf
              exact this
            · have : v.toNat < 2 ^ (8 * fieldWidth .u16) := by simpa [fits] using hf
              exact this
            · simp [Rule.width]; omega
          rw [Nat.mod_eq_of_lt h2]; simp
        · cases h
      · cases h

/-- Writing read fields gives the bytes back, whatever values come after them (44_payload_mux.md R189). -/
theorem encFields_decFields (l : List FieldType) : ∀ (vs : List Word) (p : List Byte),
    p.length = (l.map fieldWidth).sum → (∃ r, vs = decFields l p ++ r) → encFields l vs = some p := by
  induction l with
  | nil => intro vs p h _; simp at h; subst h; simp [encFields]
  | cons t ts ih =>
    rintro vs p h ⟨r, rfl⟩
    simp only [decFields, List.cons_append, encFields]
    simp only [List.map_cons, List.sum_cons] at h
    have ht : (p.take (fieldWidth t)).length = fieldWidth t := by simp; omega
    have hlt := Rule.beNat_lt (p.take (fieldWidth t))
    rw [ht] at hlt
    have hw : (decField (p.take (fieldWidth t))).toNat = Rule.beNat (p.take (fieldWidth t)) := by
      rw [decField, unbe_eq_beNat]
      cases t <;> simp [fieldWidth] at hlt ⊢ <;> omega
    have hf : fits t (decField (p.take (fieldWidth t))) = true := by
      simp only [fits, hw]
      have : (256 : Nat) ^ fieldWidth t = 2 ^ (8 * fieldWidth t) := by rw [Nat.pow_mul]
      simp [← this, hlt]
    rw [if_pos hf, ih _ _ (by simp; omega) ⟨r, rfl⟩]
    simp only [encField_eq t _ hf, hw]
    conv => rhs; rw [← List.take_append_drop (fieldWidth t) p]
    congr 2
    conv => rhs; rw [← Rule.beBytes_beNat (p.take (fieldWidth t)), ht]
    rw [fieldWidth_eq]

end Sys2Proof.Machine
end

