-- ==== Sys2Proof/Laws/PerInstr.lean ====
section
/-! SUPPORT. Facts about every command as syntax, one lemma per constructor. -/

namespace Sys2Proof.Laws.EncodedFields

/-- The command's word has well-formed fields, and is put together from them (30_encoding.md R80, R84). -/
def Statement (i : Instr) : Prop :=
  (Cmd32.ofWord (encode i)).wellFormed = true ∧ (Cmd32.ofWord (encode i)).toWord = encode i

theorem crcInit : Statement .crcInit := by unfold Statement; decide

theorem crcFeed : Statement .crcFeed := by unfold Statement; decide

theorem crcCompute : Statement .crcCompute := by unfold Statement; decide

theorem crcAppend : Statement .crcAppend := by unfold Statement; decide

theorem crcVerify : Statement .crcVerify := by unfold Statement; decide

theorem timeEncode : Statement .timeEncode := by unfold Statement; decide

theorem timeDecode : Statement .timeDecode := by unfold Statement; decide

theorem dirApidFor : Statement .dirApidFor := by unfold Statement; decide

theorem dirSubsysFor : Statement .dirSubsysFor := by unfold Statement; decide

theorem dirCount : Statement .dirCount := by unfold Statement; decide

theorem phEncode : Statement .phEncode := by unfold Statement; decide

theorem phDecode : Statement .phDecode := by unfold Statement; decide

theorem plEncode : Statement .plEncode := by unfold Statement; decide

theorem plDecode : Statement .plDecode := by unfold Statement; decide

theorem pktAssemble : Statement .pktAssemble := by unfold Statement; decide

theorem pktParse : Statement .pktParse := by unfold Statement; decide

end Sys2Proof.Laws.EncodedFields
end

