-- ==== Sys2Proof/Tests/Slice0.lean ====
section
/-! SUPPORT. Tests: ill-formed words, every command's word, a few single commands against the vectors of
95_test_vectors.md, and for each obligation with hypotheses a state and operands that meet them together. -/

namespace Sys2Proof.Tests

open Sys2Proof.Machine

/-! Small states. -/

/-- The reset state with the bytes b loaded as the input. -/
def inState (b : List Byte) : State :=
  { State.reset with mem := Memory.writeBytes [] inBase b, inLen := BitVec.ofNat 32 b.length }

/-- The reset state with the bytes b as the last output. -/
def outState (b : List Byte) : State :=
  { State.reset with mem := Memory.writeBytes [] outBase b, outLen := BitVec.ofNat 9 b.length }

/-- The reset state with these events to come. -/
def evState (e : List HostEvent) : State := { State.reset with events := e }

/-- FIELD with the listed values first and 0 in the rest. -/
def fields (l : List Word) : Vector Word Config.nField := Vector.ofFn fun i => l.getD i.val 0

/-- The outcome is a next state that p accepts. -/
def ends (o : Out) (p : State → Bool) : Bool :=
  match o with
  | .next t => p t
  | _ => false

/-- OUT[0:OUT_LEN]. -/
def output (t : State) : Option (List Byte) := t.mem.readBytes outBase t.outLen.toNat

/-- The cdh packet of 95_test_vectors.md V-PKT0, but for its last byte. -/
def cdhPacket (last : Byte) : List Byte :=
  [0x08, 0x01, 0xC0, 0x2A, 0x00, 0x1D, 0x00, 0x01, 0x2C, 0x80, 0x3F, 0x80, 0x00, 0x00, 0x40, 0x20, 0x00, 0x00, 0xBF, 0x80]
  ++ [0x00, 0x00, 0x03, 0x01, 0x42, 0x28, 0x00, 0x00, 0x00, 0x01, 0x23, 0x45, 0xBE, 0xEF, 0x07, 0xFF, 0x5E, last]

/-- The state from which PKT_ASSEMBLE makes that packet (95_test_vectors.md V-PKT0). -/
def cdhState : State :=
  { State.reset with
    ctrl := 7, argSeq := 42, timeIn := 0x00012C80
    field := fields [0x3F800000, 0x40200000, 0xBF800000, 3, 1, 0x42280000, 0x00012345, 0xBEEF, 7, 0xFF] }

/-- The payload packet of 95_test_vectors.md V-PKT1. -/
def payloadPacket : List Byte :=
  [0x08, 0x07, 0xD7, 0x71, 0x00, 0x12, 0x12, 0x34, 0x56, 0x78, 0x00, 0x01, 0x01, 0x02, 0x03, 0x41, 0x20, 0x00, 0x04, 0x41]
  ++ [0x20, 0x00, 0x05, 0x06, 0x07, 0x92, 0xA4]

/-- A header with the given APID byte and data length: the only input bytes written, IN_LEN being n. -/
def headerState (apid dlen : Byte) (n : Word) : State :=
  { inState [8, apid, 0xC0, 0, 0, dlen] with inLen := n }

/-- "123456789" (95_test_vectors.md V3). -/
def digits : List Byte := [0x31, 0x32, 0x33, 0x34, 0x35, 0x36, 0x37, 0x38, 0x39]

/-! WellFormed: an ill-formed word for each check (30_encoding.md R84). -/

theorem test_ill_formed_zero : (Cmd32.mk 1 0 1).wellFormed = false := by decide

theorem test_ill_formed_family : (Cmd32.mk 0 6 0).wellFormed = false ∧ (Cmd32.mk 0 15 1).wellFormed = false := by decide

theorem test_ill_formed_function :
    (Cmd32.mk 0 0 0).wellFormed = false ∧ (Cmd32.mk 0 0 6).wellFormed = false ∧ (Cmd32.mk 0 1 2).wellFormed = false ∧
    (Cmd32.mk 0 2 3).wellFormed = false ∧ (Cmd32.mk 0 3 2).wellFormed = false ∧ (Cmd32.mk 0 4 2).wellFormed = false ∧
    (Cmd32.mk 0 5 2).wellFormed = false := by decide

/-! Decoding: every command's word, its fields written out as ZERO, FAM, FN (30_encoding.md R80, R81). -/

theorem test_decode_checksum :
    decodeWord 0b000000000000000000000000_0000_0001 = .ok .crcInit ∧
    decodeWord 0b000000000000000000000000_0000_0010 = .ok .crcFeed ∧
    decodeWord 0b000000000000000000000000_0000_0011 = .ok .crcCompute ∧
    decodeWord 0b000000000000000000000000_0000_0100 = .ok .crcAppend ∧
    decodeWord 0b000000000000000000000000_0000_0101 = .ok .crcVerify := by decide

theorem test_decode_time :
    decodeWord 0b000000000000000000000000_0001_0000 = .ok .timeEncode ∧
    decodeWord 0b000000000000000000000000_0001_0001 = .ok .timeDecode := by decide

theorem test_decode_directory :
    decodeWord 0b000000000000000000000000_0010_0000 = .ok .dirApidFor ∧
    decodeWord 0b000000000000000000000000_0010_0001 = .ok .dirSubsysFor ∧
    decodeWord 0b000000000000000000000000_0010_0010 = .ok .dirCount := by decide

theorem test_decode_header :
    decodeWord 0b000000000000000000000000_0011_0000 = .ok .phEncode ∧
    decodeWord 0b000000000000000000000000_0011_0001 = .ok .phDecode := by decide

theorem test_decode_payload :
    decodeWord 0b000000000000000000000000_0100_0000 = .ok .plEncode ∧
    decodeWord 0b000000000000000000000000_0100_0001 = .ok .plDecode := by decide

theorem test_decode_packet :
    decodeWord 0b000000000000000000000000_0101_0000 = .ok .pktAssemble ∧
    decodeWord 0b000000000000000000000000_0101_0001 = .ok .pktParse := by decide

theorem test_decode_refuses :
    decodeTableWord 32 0 = none ∧ decodeTableWord 32 6 = none ∧ decodeTableWord 32 0x23 = none ∧
    decodeTableWord 32 0x80000001 = none ∧ decodeTableWord 32 0xFFFFFFFF = none := by decide

/-! The bit-level trace of one byte (95_test_vectors.md V2: 0x41 from 0xFFFF). -/

theorem test_crc_trace :
    crcShift 0xBEFF = 0x6DDF ∧ crcShift 0x6DDF = 0xDBBE ∧ crcShift 0xDBBE = 0xA75D ∧ crcByte 0xFFFF 0x41 = 0xB915 := by
  decide

/-! The register map (10_state.md R21): a write at ARG_SEQ's offset reaches ARG_SEQ, and a read at CRC_CALC's reads it. -/

theorem test_register_write :
    ends (step (evState [.access (.write 0x01C 4 42)])) (fun t => t.argSeq == 42 && t.argApid == 0) = true := by decide

theorem test_register_read :
    ends (step { evState [.access (.read 0x054 4)] with crcCalc := 0x29B1 }) (fun t => t.response == some (.word 0x29B1)) = true := by
  decide

/-! The checksum family (95_test_vectors.md S1, S2, V5 to V8). -/

theorem test_crc_init :
    ends (exec .crcInit { State.reset with crcAcc := 0x1234 }) (fun t => t.crcAcc == 0xFFFF && t.result == 0xFFFF) = true := by
  decide

theorem test_crc_feed :
    ends (exec .crcFeed { inState [0x43, 0x43, 0x53, 0x44, 0x53, 0x21] with crcAcc := 0xF732 })
      (fun t => t.crcAcc == 0x0AFF && t.result == 0x0AFF && t.crcCalc == 0) = true := by decide +kernel

theorem test_crc_compute :
    ends (exec .crcCompute (inState [0x48, 0x65, 0x6C, 0x6C, 0x6F, 0x2C, 0x20, 0x43, 0x43, 0x53, 0x44, 0x53, 0x21]))
      (fun t => t.err == 0 && t.crcCalc == 0x0AFF && t.crcAcc == 0xFFFF) = true := by decide +kernel

theorem test_crc_compute_range :
    ends (exec .crcCompute { State.reset with inLen := 0xFFFFFFFF }) (fun t => t.err == 8 && t.crcCalc == 0) = true := by decide

theorem test_crc_append :
    ends (exec .crcAppend (inState digits)) (fun t => output t == some (digits ++ [0x29, 0xB1]) && t.crcCalc == 0x29B1) = true := by
  decide +kernel

theorem test_crc_append_full :
    ends (exec .crcAppend { State.reset with inLen := 255 }) (fun t => t.err == 8 && t.outLen == 0) = true := by decide

theorem test_crc_verify :
    ends (exec .crcVerify (inState (digits ++ [0x29, 0xB1]))) (fun t => t.err == 0 && t.crcRx == 0x29B1) = true := by
  decide +kernel

theorem test_crc_verify_mismatch :
    ends (exec .crcVerify (inState (digits ++ [0x29, 0xB0]))) (fun t => t.err == 6 && t.crcRx == 0) = true := by decide +kernel

/-! The time code (95_test_vectors.md V-T1, V-T2). -/

theorem test_time_encode :
    ends (exec .timeEncode { State.reset with ctrl := 7, timeIn := 0x12345678 })
      (fun t => output t == some [0x12, 0x34, 0x56, 0x78] && t.timeCoarse == 0x123456 && t.timeFine == 0x78) = true := by
  decide

theorem test_time_sample : timeOfSample (0x01000005, 0x40) = (5, 0x40) ∧ timeOfSample (0x00FFFFFF, 0xFF) = (0xFFFFFF, 0xFF) := by
  decide

theorem test_time_decode :
    ends (exec .timeDecode (inState [0x12, 0x34, 0x56, 0x78]))
      (fun t => t.result == 0x12345678 && t.timeCoarse == 0x123456 && t.timeFine == 0x78) = true := by decide

theorem test_time_decode_length :
    ends (exec .timeDecode (inState [0x12, 0x34, 0x56])) (fun t => t.err == 5 && t.timeCoarse == 0) = true := by decide

/-! The directory (95_test_vectors.md V-D1 to V-D3). -/

theorem test_dir_apid_for : ends (exec .dirApidFor { State.reset with argSubsys := 6 }) (fun t => t.result == 7) = true := by
  decide

theorem test_dir_apid_for_unknown :
    ends (exec .dirApidFor { State.reset with argSubsys := 7, result := 9 }) (fun t => t.err == 1 && t.result == 9) = true := by
  decide

theorem test_dir_subsys_for : ends (exec .dirSubsysFor { State.reset with argApid := 7 }) (fun t => t.result == 6) = true := by
  decide

theorem test_dir_subsys_for_unknown :
    ends (exec .dirSubsysFor { State.reset with argApid := 0x801 }) (fun t => t.err == 2) = true := by decide

theorem test_dir_count : ends (exec .dirCount State.reset) (fun t => t.result == 7 && t.done) = true := by decide

/-! The primary header (95_test_vectors.md V-PH1, V-PH3). -/

theorem test_ph_encode :
    ends (exec .phEncode { State.reset with argApid := 1, argSeq := 42, argDlen := 29 })
      (fun t => output t == some [0x08, 0x01, 0xC0, 0x2A, 0x00, 0x1D] && t.result == 6) = true := by decide

theorem test_ph_encode_range :
    ends (exec .phEncode { State.reset with argApid := 1, argSeq := 0x4000 }) (fun t => t.err == 8 && t.outLen == 0) = true := by
  decide

theorem test_ph_decode :
    ends (exec .phDecode (inState [0xFF, 0xFF, 0xFF, 0xFF, 0x00, 0x00, 0xAA, 0xBB, 0xCC]))
      (fun t => t.phVersion == 7 && t.phType == 1 && t.phShf == 1 && t.phApid == 0x7FF && t.phSeqf == 3 && t.phSeq == 0x3FFF &&
        t.phDlen == 0 && t.phLength == 1 && t.result == 9) = true := by decide +kernel

theorem test_ph_decode_bare :
    ends (exec .phDecode (inState [0x08, 0x01, 0xC0, 0x2A, 0x00, 0x1D])) (fun t => t.err == 4 && t.phApid == 0) = true := by
  decide +kernel

/-! The payload multiplexer (95_test_vectors.md V-PL2 to V-PL4). -/

theorem test_pl_encode :
    ends (exec .plEncode { State.reset with argSubsys := 6, field := fields [1, 2, 0x0304, 5, 0x3F800000, 0x40000000, 6, 7] })
      (fun t => output t == some [1, 2, 3, 4, 5, 0x3F, 0x80, 0, 0, 0x40, 0, 0, 0, 6, 7] && t.result == 15) = true := by
  decide +kernel

theorem test_pl_encode_range :
    ends (exec .plEncode { State.reset with argSubsys := 6, field := fields [0, 0, 0x10000] }) (fun t => t.err == 8) = true := by
  decide +kernel

theorem test_pl_decode :
    ends (exec .plDecode { inState [0x41, 0x20, 0, 0, 1, 2, 3, 4, 0x41, 0x20, 0, 5, 0x41, 0x20, 0, 6, 7] with argSubsys := 3 })
      (fun t => t.field == fields [0x41200000, 1, 2, 3, 4, 0x41200005, 0x41200006, 7] && t.result == 8) = true := by
  decide +kernel

theorem test_pl_decode_order :
    ends (exec .plDecode { State.reset with argSubsys := 7, inLen := 300 }) (fun t => t.err == 8) = true := by decide

/-! The framer (95_test_vectors.md V-PKT0 to V-PKT3). -/

theorem test_pkt_assemble :
    ends (exec .pktAssemble cdhState)
      (fun t => output t == some (cdhPacket 0x66) && t.crcCalc == 0x5E66 && t.result == 38 && t.timeCoarse == 300) = true := by
  decide +kernel

theorem test_pkt_assemble_order :
    ends (exec .pktAssemble { State.reset with argSubsys := 7, argSeq := 0x4000 }) (fun t => t.err == 1) = true := by decide

theorem test_pkt_parse :
    ends (exec .pktParse (inState payloadPacket))
      (fun t => t.result == 6 && t.phSeq == 6001 && t.timeCoarse == 0x123456 && t.crcRx == 0x92A4 &&
        t.field == fields [0, 1, 0x0102, 3, 0x41200004, 0x41200005, 6, 7]) = true := by decide +kernel

/-- A corrupt trailer; and a header alone, its later bytes unwritten: an APID beyond the directory, a byte short of the declared
total, a data length that is not the schema's, a byte beyond the packet (45_framer.md R211 steps 8 and 4 to 7). -/
theorem test_pkt_parse_errors :
    ends (exec .pktParse (inState (cdhPacket 0x67))) (fun t => t.err == 6 && t.phApid == 0) = true ∧
    ends (exec .pktParse (headerState 8 29 256)) (fun t => t.err == 2) = true ∧
    ends (exec .pktParse (headerState 1 29 37)) (fun t => t.err == 4) = true ∧
    ends (exec .pktParse (headerState 1 30 39)) (fun t => t.err == 3) = true ∧
    ends (exec .pktParse (headerState 1 29 39)) (fun t => t.err == 3) = true := by decide +kernel

/-! Stops: an unwritten byte consumed (93_implementation_defined.md U1), an access that is not accepted (U6), a transaction
during reset (U7). -/

theorem test_unwritten_input : exec .crcCompute { State.reset with inLen := 1 } = .fault .unwrittenByte := rfl

theorem test_bad_access : step (evState [.access (.read 0x400 4)]) = .fault .accessError := rfl

theorem test_access_in_reset :
    step { evState [.access (.read 0x008 4)] with resetAsserted := true } = .refused .resetAsserted := rfl

/-! Witnesses: states and operands that meet the hypotheses of the obligations. -/

/-- A loaded input is the input. -/
theorem test_inputIs (b : List Byte) (h : b.length ≤ 256) : InputIs (inState b) b :=
  ⟨by simp [inState]; omega, h, fun _ hk => Memory.read_writeBytes_at _ _ _ _ hk⟩

/-- A written output is the output. -/
theorem test_outputIs (b : List Byte) (h : b.length ≤ 256) : OutputIs (outState b) b :=
  ⟨by simp [outState]; omega, fun _ hk => Memory.read_writeBytes_at _ _ _ _ hk⟩

theorem test_witness_IllegalWordRaisesIllegalCommand :
    (evState [.access (.write 0x004 4 0x60)]).resetAsserted = false ∧
    (evState [.access (.write 0x004 4 0x60)]).events = .access (.write 0x004 4 0x60) :: [] ∧ ∀ i, encode i ≠ 0x60 :=
  ⟨rfl, rfl, fun i => by cases i <;> decide⟩

theorem test_witness_StepRunsTheDecodedCommand :
    (evState [.access (.write 0x004 4 0x51)]).resetAsserted = false ∧
    (evState [.access (.write 0x004 4 0x51)]).events = .access (.write 0x004 4 0x51) :: [] ∧
    decodeWord 0x51 = .ok .pktParse := ⟨rfl, rfl, rfl⟩

theorem test_witness_IdleBlockHoldsItsState : State.reset.events = [] := rfl

theorem test_witness_ResetInputRestoresTheResetState :
    (evState [.assertReset]).events = .assertReset :: [] ∧
    (evState [.assertReset, .releaseReset]).events = .assertReset :: .releaseReset :: [] := ⟨rfl, rfl⟩

theorem test_witness_TransactionsAreRefusedDuringReset :
    ({ evState [r32 .status] with resetAsserted := true } : State).resetAsserted = true ∧
    ({ evState [r32 .status] with resetAsserted := true } : State).events = .access (.read 0x008 4) :: [] := ⟨rfl, rfl⟩

/-- The invariant holds of a state with any output that fits OUT_BUF. -/
theorem test_inv_outState (b : List Byte) (h : b.length ≤ 256) (e : List HostEvent) : Inv { outState b with events := e } :=
  { memory := Memory.wf_writeBytes (by decide) (by simp only [outBase, bufEnd]; omega) rfl
    outLen := (test_outputIs b h).1 ▸ h
    output := fun k hk => by
      have hk' : k < b.length := (test_outputIs b h).1 ▸ hk
      have hr := (test_outputIs b h).2 k hk'
      show ((outState b).mem.read _).isSome = true
      rw [hr]; rfl
    err := Nat.zero_le 9
    fresh := fun _ => rfl
    header := .inr ⟨rfl, rfl⟩ }

theorem test_witness_StepKeepsTheInvariant :
    Inv (evState [cmdEvent .dirCount]) ∧ ∃ t, step (evState [cmdEvent .dirCount]) = .next t :=
  ⟨⟨rfl, by decide, fun k hk => absurd hk (Nat.not_lt_zero k), by decide, fun _ => rfl, .inr ⟨rfl, rfl⟩⟩, _, rfl⟩

/-- The last byte of a full OUT_BUF. -/
theorem test_witness_OutputBytesCanBeRead :
    Inv { outState (List.replicate 256 0x5A) with events := [r8Out 255] } ∧
    (outState (List.replicate 256 0x5A)).resetAsserted = false ∧ 255 < (outState (List.replicate 256 0x5A)).outLen.toNat :=
  have h : (List.replicate 256 (0x5A : Byte)).length = 256 := List.length_replicate
  ⟨test_inv_outState _ (Nat.le_of_eq h) _, rfl, by rw [(test_outputIs _ (Nat.le_of_eq h)).1, h]; omega⟩

/-- The only byte of an output of one byte. -/
theorem test_witness_OutputBytesCanBeRead_one :
    Inv { outState [0x5A] with events := [r8Out 0] } ∧ 0 < (outState [0x5A]).outLen.toNat :=
  ⟨test_inv_outState [0x5A] (by decide) _, by decide⟩

theorem test_witness_RegisterReadsReturnTheirValue :
    (evState [r32 (.field 13)]).resetAsserted = false ∧ (evState [r32 (.field 13)]).events = r32 (.field 13) :: [] := ⟨rfl, rfl⟩

theorem test_witness_RegisterWritesStoreOnlyRwRegisters :
    (evState [w32 .ctrl 0xFFFFFFFF]).resetAsserted = false ∧ Reg.ctrl ≠ .cmd ∧
    (evState [w32 .ctrl 0xFFFFFFFF]).events = w32 .ctrl 0xFFFFFFFF :: [] ∧
    Reg.status ≠ .cmd ∧ (evState [w32 .status 7]).events = w32 .status 7 :: [] := ⟨rfl, by decide, rfl, by decide, rfl⟩

theorem test_witness_ReservedWordsReadZeroAndIgnoreWrites :
    ∀ off ∈ [0x098, 0x0FC, 0x300, 0x3FC], off % 4 = 0 ∧ (0x098 ≤ off ∧ off < 0x100 ∨ 0x300 ≤ off ∧ off < 0x400) ∧
      (evState [.access (.read off 4)]).events = .access (.read off 4) :: [] ∧
      (evState [.access (.write off 4 1)]).events = .access (.write off 4 1) :: [] := by decide

theorem test_witness_ByteWritesReachOnlyInBuf :
    ∀ k ∈ [0, 255], k < 256 ∧ (evState [w8In k 7]).events = w8In k 7 :: [] ∧
      (evState [.access (.write (outBase + k) 1 7)]).events = .access (.write (outBase + k) 1 7) :: [] := by decide

theorem test_witness_ByteReadsReturnWrittenBytes :
    (inBase ≤ 0x100 ∧ 0x100 < bufEnd ∧ (inState [9]).mem.read 0x100 = some 9) ∧
    (inBase ≤ 0x2FF ∧ 0x2FF < bufEnd ∧ (outState (List.replicate 256 9)).mem.read 0x2FF = some 9) ∧
    (inState [9]).mem.read 0x2FF = none ∧ State.reset.mem.read 0x100 = none := by decide +kernel

theorem test_witness_UnacceptedAccessesFault :
    ∀ x ∈ [(0x002, 4), (0x100, 4), (0x2FC, 4), (0x400, 4), (0x000, 1), (0x0FF, 1), (0x300, 1), (0x100, 2)],
      ¬ (x.2 = 4 ∧ x.1 % 4 = 0 ∧ (x.1 < 0x100 ∨ 0x300 ≤ x.1 ∧ x.1 < 0x400)) ∧ ¬ (x.2 = 1 ∧ 0x100 ≤ x.1 ∧ x.1 < 0x300) ∧
      (evState [.access (.read x.1 x.2)]).events = .access (.read x.1 x.2) :: [] ∧
      (evState [.access (.write x.1 x.2 0)]).events = .access (.write x.1 x.2 0) :: [] := by decide

theorem test_witness_ReadsHaveNoSideEffect :
    (evState [.access (.read 0x010 4)]).events = .access (.read 0x010 4) :: [] ∧
    ∃ t, step (evState [.access (.read 0x010 4)]) = .next t := ⟨rfl, _, rfl⟩

theorem test_witness_LoadInFillsTheInputBuffer :
    (List.replicate 256 (0x11 : Byte)).length ≤ 256 ∧
    (evState (loadIn (List.replicate 256 0x11))).events = loadIn (List.replicate 256 0x11) ++ [] :=
  ⟨Nat.le_of_eq List.length_replicate, (List.append_nil _).symm⟩

/-- The host is about to copy out an output of three bytes. -/
def copyState : State := { outState [1, 2, 3] with events := copyOut (outState [1, 2, 3]) }

theorem test_witness_CopyOutMakesTheOutputTheInput :
    copyState.resetAsserted = false ∧ ([1, 2, 3] : List Byte).length ≤ 256 ∧ OutputIs copyState [1, 2, 3] ∧
    copyState.events = copyOut copyState ++ [] :=
  ⟨rfl, by decide, test_outputIs [1, 2, 3] (by decide), (List.append_nil _).symm⟩

theorem test_witness_CrcFeedFoldsTheInput :
    256 < ({ State.reset with inLen := 257 } : State).inLen.toNat ∧ InputIs (inState []) [] ∧
    InputIs (inState (List.replicate 256 0xFF)) (List.replicate 256 0xFF) :=
  ⟨by decide, test_inputIs _ (by decide), test_inputIs _ (Nat.le_of_eq List.length_replicate)⟩

theorem test_witness_CrcComputeChecksTheInput :
    256 < ({ State.reset with inLen := 257 } : State).inLen.toNat ∧ InputIs (inState digits) digits :=
  ⟨by decide, test_inputIs _ (by decide)⟩

theorem test_witness_CrcAppendWritesInputAndChecksum :
    254 < ({ State.reset with inLen := 255 } : State).inLen.toNat ∧
    InputIs (inState (List.replicate 254 0)) (List.replicate 254 0) ∧ (List.replicate 254 (0 : Byte)).length ≤ 254 :=
  ⟨by decide, test_inputIs _ (by rw [List.length_replicate]; omega), Nat.le_of_eq List.length_replicate⟩

/-- Both outcomes of the comparison occur at the least length, two bytes (95_test_vectors.md V7). -/
theorem test_witness_CrcVerifyComparesTheTrailer :
    256 < ({ State.reset with inLen := 257 } : State).inLen.toNat ∧
    ({ State.reset with inLen := 1 } : State).inLen.toNat < 2 ∧
    (InputIs (inState [0xFF, 0xFF]) [0xFF, 0xFF] ∧ Rule.wordAt [0xFF, 0xFF] 0 = Rule.crc16 []) ∧
    (InputIs (inState [0, 0]) [0, 0] ∧ Rule.wordAt [0, 0] 0 ≠ Rule.crc16 []) :=
  ⟨by decide, by decide, ⟨test_inputIs _ (by decide), by decide⟩, test_inputIs _ (by decide), by decide⟩

theorem test_witness_VerifySucceedsExactlyOnZeroResidue :
    InputIs (inState [0xFF, 0xFF]) [0xFF, 0xFF] ∧ Rule.crc16 [0xFF, 0xFF] = 0 :=
  ⟨test_inputIs _ (by decide), by decide +kernel⟩

theorem test_witness_StreamedPiecesGiveTheWholeChecksum :
    (∀ b ∈ [[0x41], List.replicate 256 (0 : Byte), []], b.length ≤ 256) ∧
    (evState (cmdEvent .crcInit :: [[0x41], List.replicate 256 (0 : Byte), []].flatMap
        (fun b => loadIn b ++ [cmdEvent .crcFeed]))).events =
      cmdEvent .crcInit :: [[0x41], List.replicate 256 (0 : Byte), []].flatMap
        (fun b => loadIn b ++ [cmdEvent .crcFeed]) ++ [] :=
  ⟨by decide +kernel, (List.append_nil _).symm⟩

/-- TIME_ENCODE completes in every state; its two time operands, TIME_SRC = 1 and TIME_SRC = 0. -/
theorem test_witness_TimeEncodeWritesTheTimeCode :
    ({ State.reset with ctrl := 7 } : State).ctrl.getLsbD 1 = true ∧ State.reset.ctrl.getLsbD 1 = false := by decide

theorem test_witness_TimeDecodeReadsTheTimeCode :
    256 < ({ State.reset with inLen := 257 } : State).inLen.toNat ∧
    (({ State.reset with inLen := 5 } : State).inLen.toNat ≤ 256 ∧ ({ State.reset with inLen := 5 } : State).inLen.toNat ≠ 4) ∧
    InputIs (inState [0x12, 0x34, 0x56, 0x78]) [0x12, 0x34, 0x56, 0x78] :=
  ⟨by decide, by decide, test_inputIs _ (by decide)⟩

theorem test_witness_TimeDecodeInvertsTimeEncode :
    ∃ t, exec .timeEncode { State.reset with ctrl := 7, timeIn := 0x12345678 } = .next t ∧
      OutputIs t [0x12, 0x34, 0x56, 0x78] ∧ InputIs (inState [0x12, 0x34, 0x56, 0x78]) [0x12, 0x34, 0x56, 0x78] :=
  ⟨_, rfl, ⟨by decide, by decide⟩, test_inputIs _ (by decide)⟩

theorem test_witness_DirApidForLooksUpTheIndex :
    6 < ({ State.reset with argSubsys := 7 } : State).argSubsys.toNat ∧
    ({ State.reset with argSubsys := 6 } : State).argSubsys.toNat ≤ 6 := by decide

theorem test_witness_DirSubsysForLooksUpTheApid :
    State.reset.argApid.toNat < 1 ∧ 7 < ({ State.reset with argApid := 8 } : State).argApid.toNat ∧
    1 ≤ ({ State.reset with argApid := 1 } : State).argApid.toNat ∧
    ({ State.reset with argApid := 7 } : State).argApid.toNat ≤ 7 := by decide

/-- The last index and APID of the directory and the first beyond them, the first APID, and a lookup of the last. -/
theorem test_witness_DirectoryLookupsInvertEachOther :
    (subsystemOfIndex 6 = some .payload ∧ subsystemOfIndex 7 = none ∧
      subsysOf 0 = none ∧ subsysOf 1 = some .cdh ∧ subsysOf 7 = some .payload ∧ subsysOf 8 = none) ∧
    ∃ t, exec .dirApidFor { State.reset with argSubsys := 6 } = .next t ∧ t.err = 0 ∧
      ({ State.reset with argApid := 7 } : State).argApid = t.result := ⟨by decide, _, rfl, rfl, rfl⟩

theorem test_witness_PhEncodePacksTheHeader :
    (0x7FF < ({ State.reset with argApid := 0x800 } : State).argApid.toNat ∧
      0x3FFF < ({ State.reset with argSeq := 0x4000 } : State).argSeq.toNat ∧
      0xFFFF < ({ State.reset with argDlen := 0x10000 } : State).argDlen.toNat) ∧
    (({ State.reset with argApid := 0x7FF } : State).argApid.toNat ≤ 0x7FF ∧
      ({ State.reset with argSeq := 0x3FFF } : State).argSeq.toNat ≤ 0x3FFF ∧
      ({ State.reset with argDlen := 0xFFFF } : State).argDlen.toNat ≤ 0xFFFF) := by decide

/-- The first bytes of a loaded input. -/
theorem test_holds (h x : List Byte) : Holds (inState (h ++ x)) inBase h := fun k hk => by
  have := Memory.read_writeBytes_at [] inBase k (h ++ x) (by rw [List.length_append]; omega)
  rwa [List.getElem_append_left hk] at this

/-- A header that declares 9 bytes: with 9 bytes it is decoded, with 8 it is incomplete. -/
theorem test_witness_PhDecodeUnpacksTheHeader :
    256 < ({ State.reset with inLen := 257 } : State).inLen.toNat ∧
    ({ State.reset with inLen := 5 } : State).inLen.toNat < 6 ∧
    ([8, 1, 0xC0, 0, 0, 0] : List Byte).length = 6 ∧
    Holds (inState ([8, 1, 0xC0, 0, 0, 0] ++ [1, 2])) inBase [8, 1, 0xC0, 0, 0, 0] ∧
    (inState ([8, 1, 0xC0, 0, 0, 0] ++ [1, 2])).inLen.toNat < Rule.wordAt [8, 1, 0xC0, 0, 0, 0] 4 + 9 ∧
    Holds (inState ([8, 1, 0xC0, 0, 0, 0] ++ [1, 2, 3])) inBase [8, 1, 0xC0, 0, 0, 0] ∧
    Rule.wordAt [8, 1, 0xC0, 0, 0, 0] 4 + 9 ≤ (inState ([8, 1, 0xC0, 0, 0, 0] ++ [1, 2, 3])).inLen.toNat :=
  ⟨by decide, by decide, rfl, test_holds _ _, by decide, test_holds _ _, by decide⟩

theorem test_witness_PhDecodeInvertsPhEncode :
    ∃ t, exec .phEncode { State.reset with argApid := 7, argSeq := 0x3FFF } = .next t ∧
      OutputIs t [0x08, 0x07, 0xFF, 0xFF, 0, 0] ∧
      ({ State.reset with argApid := 7, argSeq := 0x3FFF } : State).argDlen.toNat + 3 ≤ [(1 : Byte), 2, 3].length ∧
      InputIs (inState ([0x08, 0x07, 0xFF, 0xFF, 0, 0] ++ [1, 2, 3])) ([0x08, 0x07, 0xFF, 0xFF, 0, 0] ++ [1, 2, 3]) :=
  ⟨_, rfl, ⟨by decide, by decide⟩, by decide, test_inputIs _ (by decide)⟩

/-- The payload schema's u16 field at its greatest value fits, and one more does not (95_test_vectors.md V-PL3). -/
theorem test_witness_PlEncodeWritesThePayload :
    6 < ({ State.reset with argSubsys := 7 } : State).argSubsys.toNat ∧
    (6 : Word).toNat ≤ 6 ∧ ¬ Rule.AllFit 6 (fields [0, 0, 0x10000]) ∧ Rule.AllFit 6 (fields [0xFF, 0, 0xFFFF]) := by
  decide +kernel

theorem test_witness_PlDecodeFillsTheFields :
    256 < ({ State.reset with inLen := 257 } : State).inLen.toNat ∧
    ((15 : Word).toNat ≤ 256 ∧ 6 < (7 : Word).toNat) ∧
    ((25 : Word).toNat ≤ 256 ∧ (0 : Word).toNat ≤ 6 ∧ (25 : Word).toNat ≠ Rule.plen 0) ∧
    (InputIs { inState (List.replicate 44 7) with argSubsys := 4 } (List.replicate 44 7) ∧
      (List.replicate 44 (7 : Byte)).length = Rule.plen 4) :=
  ⟨by decide, by decide, by decide, test_inputIs (List.replicate 44 7) (by decide), by decide⟩

/-- Encoding then decoding, and decoding then encoding, with all fields 0 of the payload schema. -/
theorem test_witness_PayloadCodecsInvertEachOther :
    (∃ t, exec .plEncode { inState (List.replicate 15 0) with argSubsys := 6 } = .next t ∧ t.err = 0 ∧
      OutputIs t (List.replicate 15 0)) ∧
    (∃ t, exec .plDecode { inState (List.replicate 15 0) with argSubsys := 6 } = .next t ∧ t.err = 0) ∧
    InputIs { inState (List.replicate 15 0) with argSubsys := 6 } (List.replicate 15 0) :=
  ⟨⟨_, rfl, rfl, by decide +kernel, by decide +kernel⟩, ⟨_, rfl, rfl⟩, test_inputIs (List.replicate 15 0) (by decide)⟩

theorem test_witness_PktAssembleWritesThePacket :
    6 < (7 : Word).toNat ∧ 0x3FFF < (0x4000 : Word).toNat ∧ ¬ Rule.AllFit 0 (fields [0, 0, 0, 0x100]) ∧
    cdhState.argSubsys.toNat ≤ 6 ∧ cdhState.argSeq.toNat ≤ 0x3FFF ∧ Rule.AllFit cdhState.argSubsys.toNat cdhState.field := by
  decide +kernel

/-- Each error PKT_PARSE raises on the header alone: a type bit, APIDs 0 and 8, one byte too few, a data length one above the
schema's with its whole total there, and one byte too many; in that order. -/
theorem test_witness_PktParseChecksInOrderAndDecodes_header :
    (Holds { inState [0x18, 1, 0xC0, 0, 0, 29] with inLen := 38 } inBase [0x18, 1, 0xC0, 0, 0, 29] ∧
      State.reset.ctrl.getLsbD 2 = true ∧ Rule.wordAt [0x18, 1, 0xC0, 0, 0, 29] 0 / 4096 % 2 = 1) ∧
    (Holds (headerState 0 29 6) inBase [8, 0, 0xC0, 0, 0, 29] ∧ Rule.wordAt [8, 0, 0xC0, 0, 0, 29] 0 % 2048 = 0) ∧
    (Holds (headerState 8 29 256) inBase [8, 8, 0xC0, 0, 0, 29] ∧ Rule.wordAt [8, 8, 0xC0, 0, 0, 29] 0 % 2048 = 8) ∧
    (Holds (headerState 1 29 37) inBase [8, 1, 0xC0, 0, 0, 29] ∧ 37 + 1 = Rule.wordAt [8, 1, 0xC0, 0, 0, 29] 4 + 9) ∧
    (Holds (headerState 1 30 39) inBase [8, 1, 0xC0, 0, 0, 30] ∧ 39 = Rule.wordAt [8, 1, 0xC0, 0, 0, 30] 4 + 9 ∧
      Rule.wordAt [8, 1, 0xC0, 0, 0, 30] 4 + 1 = 4 + Rule.plen 0 + 1) ∧
    (Holds (headerState 1 29 39) inBase [8, 1, 0xC0, 0, 0, 29] ∧ 39 = Rule.wordAt [8, 1, 0xC0, 0, 0, 29] 4 + 9 + 1 ∧
      Rule.wordAt [8, 1, 0xC0, 0, 0, 29] 4 + 1 = 4 + Rule.plen 0) := by
  refine ⟨⟨test_holds [0x18, 1, 0xC0, 0, 0, 29] [], ?_⟩, ⟨test_holds [8, 0, 0xC0, 0, 0, 29] [], ?_⟩,
    ⟨test_holds [8, 8, 0xC0, 0, 0, 29] [], ?_⟩, ⟨test_holds [8, 1, 0xC0, 0, 0, 29] [], ?_⟩,
    ⟨test_holds [8, 1, 0xC0, 0, 0, 30] [], ?_⟩, test_holds [8, 1, 0xC0, 0, 0, 29] [], ?_⟩ <;> decide

/-- The checks of PKT_PARSE are reached: the input of a whole packet, and one too short for a header. -/
theorem test_witness_PktParseChecksInOrderAndDecodes :
    256 < ({ State.reset with inLen := 257 } : State).inLen.toNat ∧
    ({ State.reset with inLen := 5 } : State).inLen.toNat < 6 ∧ InputIs (inState payloadPacket) payloadPacket ∧
    InputIs (inState [8]) [8] :=
  ⟨by decide, by decide, test_inputIs _ (by decide), test_inputIs _ (by decide)⟩

theorem test_witness_PktParseAcceptsEveryPacket :
    (0 ≤ 6 ∧ 42 ≤ 0x3FFF ∧ 300 < 2 ^ 24 ∧ 128 < 256 ∧ (((cdhPacket 0x66).drop 10).take 26).length = Rule.plen 0) ∧
    Rule.packet 0 42 300 128 (((cdhPacket 0x66).drop 10).take 26) = cdhPacket 0x66 ∧
    InputIs (inState (cdhPacket 0x66)) (cdhPacket 0x66) :=
  ⟨by decide, by decide +kernel, test_inputIs _ (by decide)⟩

/-- PKT_ASSEMBLE answers, with its packet as the output. -/
theorem test_witness_ParseInvertsAssemble :
    ∃ t, exec .pktAssemble cdhState = .next t ∧ t.err = 0 ∧ OutputIs t (cdhPacket 0x66) ∧
      InputIs (inState (cdhPacket 0x66)) (cdhPacket 0x66) :=
  ⟨_, rfl, rfl, ⟨by decide +kernel, by decide +kernel⟩, test_inputIs _ (by decide)⟩

/-- A fully checked parse answers, and a state holds what it gave. -/
theorem test_witness_AssembleInvertsParse :
    ∃ t, exec .pktParse (inState (cdhPacket 0x66)) = .next t ∧ t.err = 0 ∧
      InputIs (inState (cdhPacket 0x66)) (cdhPacket 0x66) ∧
      (inState (cdhPacket 0x66)).ctrl.getLsbD 2 = true ∧ (inState (cdhPacket 0x66)).ctrl.getLsbD 0 = true ∧
      cdhState.argSubsys = t.result ∧ cdhState.argSeq.toNat = t.phSeq.toNat ∧ cdhState.ctrl.getLsbD 1 = true ∧
      cdhState.timeIn.toNat = t.timeCoarse.toNat * 256 + t.timeFine.toNat ∧ cdhState.field = t.field := by
  have h : ends (exec .pktParse (inState (cdhPacket 0x66))) (fun t => t.err == 0 && cdhState.argSubsys == t.result &&
      cdhState.argSeq.toNat == t.phSeq.toNat && cdhState.timeIn.toNat == t.timeCoarse.toNat * 256 + t.timeFine.toNat &&
      cdhState.field == t.field) = true := by decide +kernel
  cases ht : exec .pktParse (inState (cdhPacket 0x66)) with
  | next t =>
    simp only [ht, ends, Bool.and_eq_true, beq_iff_eq] at h
    exact ⟨t, rfl, h.1.1.1.1, test_inputIs _ (by decide), by decide, by decide, h.1.1.1.2, h.1.1.2, by decide, h.1.2, h.2⟩
  | fault r => rw [ht] at h; cases h
  | refused r => rw [ht] at h; cases h

/-- An assembled packet and an accepted one. -/
theorem test_witness_PacketsKeepTheirInvariants :
    (∃ t, exec .pktAssemble cdhState = .next t ∧ t.err = 0 ∧ OutputIs t (cdhPacket 0x66)) ∧
    ∃ t, exec .pktParse (inState (cdhPacket 0x66)) = .next t ∧ t.err = 0 ∧
      InputIs (inState (cdhPacket 0x66)) (cdhPacket 0x66) ∧ (inState (cdhPacket 0x66)).ctrl.getLsbD 0 = true :=
  let ⟨t, h1, h2, h3, _⟩ := test_witness_ParseInvertsAssemble
  let ⟨u, g1, g2, g3, _, g4, _⟩ := test_witness_AssembleInvertsParse
  ⟨⟨t, h1, h2, h3⟩, u, g1, g2, g3, g4⟩

/-- Commands answer both ways: one that raises an error, and one that succeeds. -/
theorem test_witness_FailingCommandsChangeOnlyStatus :
    ∃ t, exec .dirApidFor { State.reset with argSubsys := 7 } = .next t ∧ t.err ≠ 0 := ⟨_, rfl, by decide⟩

theorem test_witness_CommandsCompleteOnWrittenInput : InputWritten (inState (List.replicate 256 0)) := fun k hk => by
  rw [(test_inputIs (List.replicate 256 0) (Nat.le_of_eq List.length_replicate)).2.2 k
    (Nat.lt_of_lt_of_eq hk List.length_replicate.symm)]; rfl

/-- A command that takes no time sample, and one that takes one. -/
theorem test_witness_CommandsLeaveHostRegistersAlone :
    (∃ t, exec .crcInit State.reset = .next t ∧ takesTime .crcInit = false) ∧
    ∃ t, exec .timeEncode State.reset = .next t ∧ takesTime .timeEncode = true := ⟨⟨_, rfl, rfl⟩, _, rfl, rfl⟩

/-- A command that succeeds, and one of the registers it is not listed as writing. -/
theorem test_witness_OnlyListedCommandsWrite :
    ∃ t, exec .crcInit State.reset = .next t ∧ t.err = 0 ∧ writesCrcRx .crcInit = false := ⟨_, rfl, rfl, rfl⟩

/-- A sample is taken, and none is taken with TIME_SRC = 1. -/
theorem test_witness_TimeSamplesAreTakenOnlyOnSuccess :
    (∃ t, exec .timeEncode State.reset = .next t ∧ t.samples = 1) ∧
    ∃ t, exec .timeEncode { State.reset with ctrl := 7 } = .next t ∧ t.samples = 0 := ⟨⟨_, rfl, rfl⟩, _, rfl, rfl⟩

/-- Two states that differ in every operand DIR_COUNT does not list, and the input PKT_PARSE reads agreeing. -/
theorem test_witness_CommandsReadOnlyTheirOperands :
    SameOperands .dirCount State.reset cdhState ∧
    SameOperands .pktParse (inState payloadPacket) { inState payloadPacket with argSeq := 5, crcAcc := 0 } ∧
    (∃ t, exec .dirCount State.reset = .next t) ∧ ∃ t, exec .dirCount cdhState = .next t :=
  ⟨trivial, ⟨⟨rfl, fun _ _ => rfl⟩, rfl, rfl⟩, ⟨_, rfl⟩, _, rfl⟩

end Sys2Proof.Tests
end

section
/-! Two runs of a command from states that agree on its operands (00_scope.md R14, 30_encoding.md R81): each combinator a
command is built of keeps the two answers in agreement, so every command does. -/

namespace Sys2Proof.Machine

/-! Agreeing operands. -/

theorem SameInput.inCount {s t : State} (h : SameInput s t) : s.inCount = t.inCount := congrArg BitVec.toNat h.1

theorem SameInput.inLenOk {s t : State} (h : SameInput s t) : s.inLenOk = t.inLenOk := by
  simp only [State.inLenOk, h.inCount]

/-- Memories that agree on a run's offsets answer the same run. -/
theorem Memory.readBytes_congr {m m' : Memory} {a n : Nat} (h : ∀ k, k < n → m.read (a + k) = m'.read (a + k)) :
    m.readBytes a n = m'.readBytes a n := by
  refine Option.ext fun b => ?_
  simp only [Memory.readBytes_eq_some]
  refine and_congr_right fun hl => forall₂_congr fun k hk => ?_
  rw [h k (hl ▸ hk)]

/-- The first bytes of the input, as far as IN_LEN reaches. -/
theorem SameInput.readBytes {s t : State} (h : SameInput s t) {n : Nat} (hn : n ≤ s.inCount) :
    s.mem.readBytes (inBase + 0) n = t.mem.readBytes (inBase + 0) n :=
  Memory.readBytes_congr fun k hk => h.2 k (Nat.lt_of_lt_of_le hk hn)

theorem SameTime.sampleTime {s t : State} (h : SameTime s t) : sampleTime s = sampleTime t := by
  obtain ⟨hsrc, hin, hsamples⟩ := h
  unfold Machine.sampleTime
  cases hs : s.timeSrc with
  | true => simp [← hsrc, hs, hin hs]
  | false => simp [← hsrc, hs, hsamples hs]

theorem nf_eq_ruleNf (y : Subsystem) : nf y = Rule.nf (subsystemIndex y) := by cases y <;> rfl

/-- Values beyond the field types are not read. -/
theorem encFields_take (ts : List FieldType) (vs : List Word) : encFields ts (vs.take ts.length) = encFields ts vs := by
  induction ts generalizing vs with
  | nil => simp [encFields]
  | cons t ts ih => cases vs <;> simp [encFields, ih]

/-- FIELD[nf(s)..13] are not read (44_payload_mux.md R185). -/
theorem SameFields.encPayload {s t : State} (h : SameFields s t) {y : Subsystem}
    (hy : s.argSubsys.toNat = subsystemIndex y) : encPayload y s.field = encPayload y t.field := by
  have hfield : s.field.toList.take (nf y) = t.field.toList.take (nf y) := by
    refine List.ext_getElem (by simp) fun k hk _ => ?_
    simp only [List.length_take, Vector.length_toList, Nat.lt_min] at hk
    obtain ⟨hnf, hk14⟩ := hk
    simpa using h.2 k hk14 (by rw [hy, ← nf_eq_ruleNf]; exact hnf)
  unfold Machine.encPayload
  rw [← encFields_take, ← nf, hfield, nf, encFields_take]

/-! Agreeing answers. -/

/-- Where both runs of command i answer a next state, they give the same error code and, on success, the same results. -/
def SameAnswer (i : Instr) (o o' : Out) : Prop :=
  ∀ s t, o = .next s → o' = .next t → s.err = t.err ∧ (s.err = 0 → SameResults i s t)

namespace SameAnswer
variable {i : Instr} {s t u u' : State} {v v' : Word}

theorem fail (e : ErrCode) : SameAnswer i (fail e s) (fail e t) := by
  rintro _ _ h h'
  rw [fail_eq_next.mp h, fail_eq_next.mp h']
  exact ⟨rfl, fun h0 => absurd h0 e.code_ne_zero⟩

/-- Two commits agree where RESULT and what the command writes agree. Each command names what it writes;
the remaining hypotheses are about registers it does not write, so nofun meets them. -/
theorem succeed (result : v = v')
    (crcAcc : writesCrcAcc i = true → u.crcAcc = u'.crcAcc)
    (time : writesTime i = true → u.timeCoarse = u'.timeCoarse ∧ u.timeFine = u'.timeFine)
    (header : writesHeader i = true →
      ∀ r ∈ [Reg.phVersion, .phType, .phShf, .phApid, .phSeqf, .phSeq, .phDlen, .phLength],
        readReg r u = readReg r u')
    (crcRx : writesCrcRx i = true → u.crcRx = u'.crcRx)
    (crcCalc : writesCrcCalc i = true → u.crcCalc = u'.crcCalc)
    (field : writesField i = true → u.field = u'.field)
    (output : writesOutput i = true → ∃ b, OutputIs u b ∧ OutputIs u' b) :
    SameAnswer i (succeed v u) (succeed v' u') := by
  rintro _ _ h h'
  rw [succeed_eq_next.mp h, succeed_eq_next.mp h']
  exact ⟨rfl, fun _ => ⟨result, crcAcc, time, by simpa [readReg] using header, crcRx, crcCalc, field, output⟩⟩

theorem require {ok ok' : Bool} {e : ErrCode} {o o' : Out} (hok : ok = ok') (h : ok = true → SameAnswer i o o') :
    SameAnswer i (require ok e s o) (require ok' e t o') := by
  subst hok
  cases ok with
  | true => exact h rfl
  | false => exact fail e

theorem withInput {first count count' : Nat} {k k' : List Byte → Out} (hcount : count = count')
    (hread : s.mem.readBytes (inBase + first) count = t.mem.readBytes (inBase + first) count)
    (h : ∀ b, b.length = count → SameAnswer i (k b) (k' b)) :
    SameAnswer i (withInput first count s k) (withInput first count' t k') := by
  subst hcount
  rintro s' t' hs ht
  obtain ⟨b, hb, hs⟩ := withInput_eq_next.mp hs
  obtain ⟨b', hb', ht⟩ := withInput_eq_next.mp ht
  obtain rfl : b = b' := Option.some.inj (hb.symm.trans (hread.trans hb'))
  exact h b (readInput_eq_some.mp hb).1 s' t' hs ht

/-- The whole input. -/
theorem withWholeInput {k k' : List Byte → Out} (hin : SameInput s t)
    (h : ∀ b, b.length = s.inCount → SameAnswer i (k b) (k' b)) :
    SameAnswer i (Machine.withInput 0 s.inCount s k) (Machine.withInput 0 t.inCount t k') :=
  withInput hin.inCount (hin.readBytes le_rfl) h

theorem withSubsystem {w w' : Word} {k k' : Subsystem → Out} (hw : w = w')
    (h : ∀ y, w.toNat = subsystemIndex y → SameAnswer i (k y) (k' y)) :
    SameAnswer i (withSubsystem w s k) (withSubsystem w' t k') := by
  subst hw
  cases hy : subsystemOfIndex w.toNat with
  | none => simpa [Machine.withSubsystem, hy] using fail .unknownSubsystem
  | some y => simpa [Machine.withSubsystem, hy] using h y (subsystemOfIndex_eq_some.mp hy)

theorem withApid {n n' : Nat} {k k' : Subsystem → Out} (hn : n = n') (h : ∀ y, SameAnswer i (k y) (k' y)) :
    SameAnswer i (withApid n s k) (withApid n' t k') := by
  subst hn
  cases hy : subsysOf n with
  | none => simpa [Machine.withApid, hy] using fail .unknownApid
  | some y => simpa [Machine.withApid, hy] using h y

theorem withPayload {y : Subsystem} {k k' : List Byte → Out} (hp : encPayload y s.field = encPayload y t.field)
    (h : ∀ p, p.length = plen y → SameAnswer i (k p) (k' p)) :
    SameAnswer i (withPayload y s k) (withPayload y t k') := by
  cases hs : encPayload y s.field with
  | none => simpa [Machine.withPayload, ← hp, hs] using fail .rangeError
  | some p => simpa [Machine.withPayload, ← hp, hs] using h p (length_encPayload hs)

end SameAnswer

/-- Writing one output of at most 256 bytes makes it the output of both states. -/
theorem exists_outputIs_putOutput (s t : State) {b : List Byte} (h : b.length ≤ 256) :
    ∃ b', OutputIs (s.putOutput b) b' ∧ OutputIs (t.putOutput b) b' :=
  ⟨b, (outputs_putOutput s h).1, (outputs_putOutput t h).1⟩

/-! Each command, from two states that agree on its operands (30_encoding.md R81). -/

section
variable {s t : State}

theorem sameAnswer_crcFeed (hacc : s.crcAcc = t.crcAcc) (hin : SameInput s t) :
    SameAnswer .crcFeed (execCrcFeed s) (execCrcFeed t) :=
  .require hin.inLenOk fun _ => .withWholeInput hin fun _ _ =>
    .succeed (by rw [hacc]) (crcAcc := fun _ => by simp only [hacc]) nofun nofun nofun nofun nofun nofun

theorem sameAnswer_crcCompute (hin : SameInput s t) : SameAnswer .crcCompute (execCrcCompute s) (execCrcCompute t) :=
  .require hin.inLenOk fun _ => .withWholeInput hin fun _ _ =>
    .succeed rfl (crcCalc := fun _ => rfl) nofun nofun nofun nofun nofun nofun

theorem sameAnswer_crcAppend (hin : SameInput s t) : SameAnswer .crcAppend (execCrcAppend s) (execCrcAppend t) :=
  .require hin.inLenOk fun _ => .require (by rw [hin.inCount]) fun hfit => .withWholeInput hin fun b hb =>
    have hlen : (b ++ be16 (crc16 b)).length ≤ 256 := by simpa [hb, Config.outCap] using hfit
    .succeed rfl (crcCalc := fun _ => rfl) (output := fun _ => exists_outputIs_putOutput _ _ hlen)
      nofun nofun nofun nofun nofun

theorem sameAnswer_crcVerify (hin : SameInput s t) : SameAnswer .crcVerify (execCrcVerify s) (execCrcVerify t) :=
  .require hin.inLenOk fun _ => .require (by rw [hin.inCount]) fun _ => .withWholeInput hin fun _ _ =>
    .require (by rw [hin.inCount]) fun _ =>
      .succeed (by rw [hin.inCount]) (crcRx := fun _ => by simp only [hin.inCount])
        (crcCalc := fun _ => by simp only [hin.inCount]) nofun nofun nofun nofun nofun

theorem sameAnswer_timeEncode (htime : SameTime s t) : SameAnswer .timeEncode (execTimeEncode s) (execTimeEncode t) := by
  unfold execTimeEncode
  rw [htime.sampleTime]
  exact .succeed rfl (time := fun _ => ⟨rfl, rfl⟩) (output := fun _ => exists_outputIs_putOutput _ _ (by simp))
    nofun nofun nofun nofun nofun

theorem sameAnswer_timeDecode (hin : SameInput s t) : SameAnswer .timeDecode (execTimeDecode s) (execTimeDecode t) :=
  .require hin.inLenOk fun _ => .require (by rw [hin.inCount]) fun h4 =>
    .withInput rfl (hin.readBytes (eq_of_beq h4).ge) fun _ _ =>
      .succeed rfl (time := fun _ => ⟨rfl, rfl⟩) nofun nofun nofun nofun nofun nofun

theorem sameAnswer_dirApidFor (hy : s.argSubsys = t.argSubsys) :
    SameAnswer .dirApidFor (execDirApidFor s) (execDirApidFor t) :=
  .withSubsystem hy fun _ _ => .succeed rfl nofun nofun nofun nofun nofun nofun nofun

theorem sameAnswer_dirSubsysFor (ha : s.argApid = t.argApid) :
    SameAnswer .dirSubsysFor (execDirSubsysFor s) (execDirSubsysFor t) :=
  .withApid (by rw [ha]) fun _ => .succeed rfl nofun nofun nofun nofun nofun nofun nofun

theorem sameAnswer_phEncode (ha : s.argApid = t.argApid) (hq : s.argSeq = t.argSeq) (hd : s.argDlen = t.argDlen) :
    SameAnswer .phEncode (execPhEncode s) (execPhEncode t) := by
  unfold execPhEncode
  rw [ha, hq, hd]
  exact .require rfl fun _ => .require rfl fun _ => .require rfl fun _ =>
    .succeed rfl (output := fun _ => exists_outputIs_putOutput _ _ (by simp)) nofun nofun nofun nofun nofun nofun

theorem sameAnswer_phDecode (hin : SameInput s t) : SameAnswer .phDecode (execPhDecode s) (execPhDecode t) :=
  .require hin.inLenOk fun _ => .require (by rw [hin.inCount]) fun h6 =>
    .withInput rfl (hin.readBytes (of_decide_eq_true h6)) fun _ _ => .require (by rw [hin.inCount]) fun _ =>
      .succeed rfl (header := fun _ => by simp [readReg]) nofun nofun nofun nofun nofun nofun

theorem sameAnswer_plEncode (hf : SameFields s t) : SameAnswer .plEncode (execPlEncode s) (execPlEncode t) :=
  .withSubsystem hf.1 fun y hy => .withPayload (hf.encPayload hy) fun p hp =>
    have hlen : p.length ≤ 256 := by have := plen_le y; omega
    .succeed rfl (output := fun _ => exists_outputIs_putOutput _ _ hlen) nofun nofun nofun nofun nofun nofun

theorem sameAnswer_plDecode (hy : s.argSubsys = t.argSubsys) (hin : SameInput s t) :
    SameAnswer .plDecode (execPlDecode s) (execPlDecode t) :=
  .require hin.inLenOk fun _ => .withSubsystem hy fun _ _ => .require (by rw [hin.inCount]) fun _ =>
    .withWholeInput hin fun _ _ => .succeed rfl (field := fun _ => rfl) nofun nofun nofun nofun nofun nofun

theorem sameAnswer_pktAssemble (hf : SameFields s t) (hq : s.argSeq = t.argSeq) (htime : SameTime s t) :
    SameAnswer .pktAssemble (execPktAssemble s) (execPktAssemble t) := by
  unfold execPktAssemble
  rw [hq, htime.sampleTime]
  exact .withSubsystem hf.1 fun y hy => .require rfl fun _ => .withPayload (hf.encPayload hy) fun p hp =>
    have hlen : (packetOf y (t.argSeq.setWidth 14) (sampleTime t) p).length ≤ 256 := by
      have := plen_le y
      rw [length_packetOf]; omega
    .succeed rfl (time := fun _ => ⟨rfl, rfl⟩) (crcCalc := fun _ => rfl)
      (output := fun _ => exists_outputIs_putOutput _ _ hlen) nofun nofun nofun nofun

theorem sameAnswer_pktParse (hin : SameInput s t) (hcrc : s.crcChk = t.crcChk) (hhdr : s.hdrChk = t.hdrChk) :
    SameAnswer .pktParse (execPktParse s) (execPktParse t) :=
  have hn := hin.inCount
  .require hin.inLenOk fun _ => .require (by rw [hn]) fun h6 =>
    .withInput rfl (hin.readBytes (of_decide_eq_true h6)) fun _ _ => .require (by rw [hhdr]) fun _ => .withApid rfl fun _ =>
      .require (by rw [hn]) fun _ => .require rfl fun _ => .require (by rw [hn]) fun _ =>
        .withWholeInput hin fun _ _ => .require (by rw [hcrc, hn]) fun _ =>
          .succeed rfl (time := fun _ => ⟨rfl, rfl⟩) (header := fun _ => by simp [readReg])
            (crcRx := fun _ => by simp only [hn]) (crcCalc := fun _ => by simp only [hn]) (field := fun _ => rfl) nofun nofun

end

theorem exec_sameAnswer {i : Instr} {s t : State} (h : SameOperands i s t) : SameAnswer i (exec i s) (exec i t) := by
  cases i with
  | crcInit => exact .succeed rfl (crcAcc := fun _ => rfl) nofun nofun nofun nofun nofun nofun
  | crcFeed => exact sameAnswer_crcFeed h.1 h.2
  | crcCompute => exact sameAnswer_crcCompute h
  | crcAppend => exact sameAnswer_crcAppend h
  | crcVerify => exact sameAnswer_crcVerify h
  | timeEncode => exact sameAnswer_timeEncode h
  | timeDecode => exact sameAnswer_timeDecode h
  | dirApidFor => exact sameAnswer_dirApidFor h
  | dirSubsysFor => exact sameAnswer_dirSubsysFor h
  | dirCount => exact .succeed rfl nofun nofun nofun nofun nofun nofun nofun
  | phEncode =>
    obtain ⟨ha, hq, hd⟩ := h
    exact sameAnswer_phEncode ha hq hd
  | phDecode => exact sameAnswer_phDecode h
  | plEncode => exact sameAnswer_plEncode h
  | plDecode => exact sameAnswer_plDecode h.1 h.2
  | pktAssemble =>
    obtain ⟨hf, hq, htime⟩ := h
    exact sameAnswer_pktAssemble hf hq htime
  | pktParse =>
    obtain ⟨hin, hcrc, hhdr⟩ := h
    exact sameAnswer_pktParse hin hcrc hhdr

/-- Settles O57: each command is built of steps that give agreeing answers on agreeing operands. -/
theorem commandsReadOnlyTheirOperands : Obligations.CommandsReadOnlyTheirOperands :=
  fun _ _ _ _ _ hsame hs ht => exec_sameAnswer hsame _ _ hs ht

end Sys2Proof.Machine
end

section
/-! What a command may write (10_state.md R21, the column 'written by commands'): one equation for all commands, and what
becomes of the output and the header registers. -/

namespace Sys2Proof.Machine

variable {i : Instr} {s t u : State} {v : Word}

/-- s with STATUS, RESULT and what command i is listed as writing taken from t, and with the count of samples of t if i
takes the time (10_state.md R21, 41_timecode.md R121). -/
def State.takeWrites (s : State) (i : Instr) (t : State) : State :=
  { s with
    err := t.err
    done := t.done
    result := t.result
    crcAcc := if writesCrcAcc i then t.crcAcc else s.crcAcc
    timeCoarse := if writesTime i then t.timeCoarse else s.timeCoarse
    timeFine := if writesTime i then t.timeFine else s.timeFine
    phVersion := if writesHeader i then t.phVersion else s.phVersion
    phType := if writesHeader i then t.phType else s.phType
    phShf := if writesHeader i then t.phShf else s.phShf
    phApid := if writesHeader i then t.phApid else s.phApid
    phSeqf := if writesHeader i then t.phSeqf else s.phSeqf
    phSeq := if writesHeader i then t.phSeq else s.phSeq
    phDlen := if writesHeader i then t.phDlen else s.phDlen
    phLength := if writesHeader i then t.phLength else s.phLength
    crcRx := if writesCrcRx i then t.crcRx else s.crcRx
    crcCalc := if writesCrcCalc i then t.crcCalc else s.crcCalc
    outLen := if writesOutput i then t.outLen else s.outLen
    field := if writesField i then t.field else s.field
    mem := if writesOutput i then t.mem else s.mem
    samples := if takesTime i then t.samples else s.samples }

theorem State.sampleTaken_eq (s : State) : ∃ n, s.sampleTaken = { s with samples := n } := by
  unfold State.sampleTaken
  split
  · exact ⟨s.samples, rfl⟩
  · exact ⟨s.samples + 1, rfl⟩

theorem State.sampleTaken_samples_cases (s : State) :
    s.sampleTaken.samples = s.samples ∨ s.sampleTaken.samples = s.samples + 1 := by
  rw [State.sampleTaken_samples]
  split <;> simp

theorem State.takeWrites_raise (i : Instr) (e : ErrCode) (s : State) : s.takeWrites i (s.raise e) = s.raise e := by
  simp only [State.takeWrites, State.raise, State.setStatus, ite_self]

/-- A command's effect is confined to what the command is listed as writing. -/
theorem effect_eq_takeWrites (h : Effect s v u i) : u = s.takeWrites i u := by
  cases i <;> simp only [Effect] at h
  case crcInit | dirCount => obtain ⟨_, rfl⟩ := h; rfl
  case timeEncode =>
    obtain ⟨_, rfl⟩ := h
    obtain ⟨n, hn⟩ := s.sampleTaken_eq
    rw [hn]; rfl
  case crcFeed | crcCompute | dirApidFor | dirSubsysFor => obtain ⟨_, _, _, rfl⟩ := h; rfl
  case crcAppend | phEncode => obtain ⟨_, _, _, _, rfl⟩ := h; rfl
  case crcVerify | timeDecode | plEncode => obtain ⟨_, _, _, _, _, rfl⟩ := h; rfl
  case phDecode | plDecode => obtain ⟨_, _, _, _, _, _, rfl⟩ := h; rfl
  case pktAssemble =>
    obtain ⟨y, p, _, _, _, _, rfl⟩ := h
    obtain ⟨n, hn⟩ := s.sampleTaken_eq
    rw [hn]
    -- which bytes and which checksum were written plays no part here, so they are not evaluated
    generalize packetOf y _ (sampleTime s) p = b, crc16 _ = c
    rfl
  case pktParse => obtain ⟨_, _, _, _, _, _, _, _, _, _, _, _, rfl⟩ := h; rfl

/-- The frame of every command: what it is not listed as writing is as before (10_state.md R21). -/
theorem exec_eq_takeWrites (h : exec i s = .next t) : t = s.takeWrites i t := by
  obtain ⟨e, _, rfl⟩ | ⟨v, u, he, rfl⟩ := exec_cases h
  · exact (s.takeWrites_raise i e).symm
  · exact congrArg (fun u : State => { u with result := v }.setStatus 0) (effect_eq_takeWrites he)

/-- A command leaves the memory and OUT_LEN alone, or writes one output of at most 256 bytes (10_state.md R36, R39). -/
theorem exec_memory (h : exec i s = .next t) :
    (t.mem = s.mem ∧ t.outLen = s.outLen) ∨
    ∃ b, b.length ≤ 256 ∧ t.mem = s.mem.writeBytes outBase b ∧ t.outLen = BitVec.ofNat 9 b.length := by
  obtain ⟨e, _, rfl⟩ | ⟨v, u, he, rfl⟩ := exec_cases h
  · exact .inl ⟨rfl, rfl⟩
  · exact (effect_memory he).imp And.right And.right

/-- The bytes outside OUT[0:OUT_LEN] are as before (10_state.md R38, R39). -/
theorem exec_read_outside_output (h : exec i s = .next t) {a : Nat}
    (ha : a < outBase ∨ outBase + t.outLen.toNat ≤ a) : t.mem.read a = s.mem.read a := by
  obtain ⟨hmem, -⟩ | ⟨b, hb, hmem, hout⟩ := exec_memory h
  · rw [hmem]
  · obtain ⟨⟨hlen, -⟩, hframe⟩ := outputs_of hmem hout hb
    exact hframe a (hlen ▸ ha)

/-- A command that takes the time advances the count of samples by one at the most (41_timecode.md R121). -/
theorem effect_samples (h : Effect s v u i) : u.samples = if takesTime i then s.sampleTaken.samples else s.samples := by
  cases ht : takesTime i with
  | false =>
    rw [effect_eq_takeWrites h]
    simp [State.takeWrites, ht]
  | true =>
    cases i <;> simp only [takesTime, Bool.false_eq_true] at ht
    case timeEncode => obtain ⟨_, rfl⟩ := h; rfl
    case pktAssemble => obtain ⟨_, _, _, _, _, _, rfl⟩ := h; rfl

theorem exec_samples_cases (h : exec i s = .next t) : t.samples = s.samples ∨ t.samples = s.samples + 1 := by
  obtain ⟨e, _, rfl⟩ | ⟨v, u, he, rfl⟩ := exec_cases h
  · exact .inl rfl
  · rw [State.setStatus_samples, effect_samples he]
    split
    · exact s.sampleTaken_samples_cases
    · exact .inl rfl

/-- A command that decodes a header leaves PH_LENGTH = PH_DLEN + 1 (10_state.md R35). -/
theorem effect_phLength (h : Effect s v u i) (hw : writesHeader i = true) : u.phLength = u.phDlen.setWidth 17 + 1 := by
  cases i <;> simp only [writesHeader, Bool.false_eq_true] at hw
  case phDecode => obtain ⟨_, _, _, _, _, _, rfl⟩ := h; rfl
  case pktParse => obtain ⟨_, _, _, _, _, _, _, _, _, _, _, _, rfl⟩ := h; rfl

theorem exec_phLength (h : exec i s = .next t) :
    (t.phLength = s.phLength ∧ t.phDlen = s.phDlen) ∨ t.phLength = t.phDlen.setWidth 17 + 1 := by
  obtain ⟨e, _, rfl⟩ | ⟨v, u, he, rfl⟩ := exec_cases h
  · exact .inl ⟨rfl, rfl⟩
  · cases hw : writesHeader i with
    | true => exact .inr (effect_phLength he hw :)
    | false =>
      left
      rw [effect_eq_takeWrites he]
      simp [State.takeWrites, hw]

/-- Every command sets STATUS.DONE, and STATUS.ERR to 0 or to an error's code (10_state.md R24). -/
theorem exec_status (h : exec i s = .next t) : t.done = true ∧ t.err.toNat ≤ 9 := by
  obtain ⟨e, _, rfl⟩ | ⟨v, u, _, rfl⟩ := exec_cases h
  · exact ⟨rfl, e.code_le_nine⟩
  · exact ⟨rfl, Nat.zero_le 9⟩

end Sys2Proof.Machine
end

section
/-! Bus transactions, one equation or inversion lemma for each kind (20_memory.md R61 to R63, 10_state.md R23). -/

namespace Sys2Proof.Machine

variable {s t : State} {off n : Nat} {v w : Word} {i : Instr} {rest : List HostEvent}

/-! Reads. -/

theorem memRead_word (h : accepted off 4 = true) (s : State) :
    memRead off 4 s = .next { s with response := some (.word (readWordAt off s)) } := by
  simp [memRead, h]

theorem memRead_byte {x : Byte} (h : accepted off 1 = true) (hx : s.mem.read off = some x) :
    memRead off 1 s = .next { s with response := some (.byte x) } := by
  simp [memRead, h, hx]

/-- An answered read changes nothing but the bus's answer (20_memory.md R68). -/
theorem memRead_eq_next (h : memRead off n s = .next t) : ∃ r, t = { s with response := r } := by
  unfold memRead at h
  split at h
  · cases h
  · split at h
    · cases h; exact ⟨_, rfl⟩
    · split at h <;> cases h
      exact ⟨_, rfl⟩

/-! Writes. -/

theorem memWrite_word (h : accepted off 4 = true) (hc : off ≠ cmdOffset) (v : Word) (s : State) :
    memWrite off 4 v s = .next (writeWordAt off v { s with response := some .done }) := by
  simp [memWrite, h, hc]

theorem memWrite_cmd (w : Word) (s : State) :
    memWrite cmdOffset 4 w s = runCommand w { s with response := some .done } := by
  have h : accepted cmdOffset 4 = true := accepted_offset .cmd
  simp [memWrite, h]

/-- A write that is answered ran a command, or stored a word or one buffer byte. -/
theorem memWrite_eq_next (h : memWrite off n v s = .next t) :
    runCommand v { s with response := some .done } = .next t ∨
    t = writeWordAt off v { s with response := some .done } ∨
    (inBase ≤ off ∧ t = writeByteAt off (v.setWidth 8) { s with response := some .done }) := by
  cases ha : accepted off n with
  | false => simp [memWrite, ha] at h
  | true =>
    obtain ⟨rfl, -⟩ | ⟨rfl, hlo, -⟩ := accepted_iff.mp ha
    · by_cases hc : off = cmdOffset
      · subst hc
        exact .inl (memWrite_cmd v s ▸ h)
      · rw [memWrite_word ha hc] at h
        cases h
        exact .inr (.inl rfl)
    · simp only [memWrite, ha] at h
      cases h
      exact .inr (.inr ⟨hlo, rfl⟩)

/-! Reserved words. -/

theorem readWordAt_reserved (h : 0x098 ≤ off) (s : State) : readWordAt off s = 0 := by
  simp [readWordAt, Reg.ofOffset_reserved h]

theorem writeWordAt_reserved (h : 0x098 ≤ off) (v : Word) (s : State) : writeWordAt off v s = s := by
  simp [writeWordAt, Reg.ofOffset_reserved h]

/-! Command words. -/

theorem runCommand_of_decodeWord (h : decodeWord w = .ok i) (s : State) : runCommand w s = exec i s := by
  simp [runCommand, h]

theorem runCommand_of_reject {r : DecodeReject} (h : decodeWord w = .error r) (s : State) :
    runCommand w s = fail .illegalCommand s := by
  simp [runCommand, h]

/-- With reset released, a CMD write runs its word (10_state.md R23). -/
theorem step_of_cmdWrite (hr : s.resetAsserted = false) (h : s.events = .access (.write cmdOffset 4 w) :: rest) :
    step s = runCommand w { s with events := rest, response := some .done } := by
  rw [step_of_access hr h]
  exact memWrite_cmd w _

theorem decodeWord_encode (i : Instr) : decodeWord (encode i) = .ok i := by cases i <;> rfl

theorem tableWord_toNat (w : Word) : tableWord 32 w.toNat = w := by
  simp [tableWord, Nat.mod_eq_of_lt w.isLt]

end Sys2Proof.Machine
end

section
/-! The invariant Inv of Safety.lean, kept by every event. -/

namespace Sys2Proof.Machine

variable {s t : State} {w v : Word}

/-- The invariant speaks of the memory, OUT_LEN, STATUS, PH_DLEN and PH_LENGTH only. -/
theorem Inv.of_eq (h : Inv s) (mem : t.mem = s.mem := by rfl) (outLen : t.outLen = s.outLen := by rfl)
    (err : t.err = s.err := by rfl) (done : t.done = s.done := by rfl) (phLength : t.phLength = s.phLength := by rfl)
    (phDlen : t.phDlen = s.phDlen := by rfl) : Inv t where
  memory := mem ▸ h.memory
  outLen := outLen ▸ h.outLen
  output := by rw [mem, outLen]; exact h.output
  err := err ▸ h.err
  fresh := by rw [done, err]; exact h.fresh
  header := by rw [phLength, phDlen]; exact h.header

theorem Inv.raise (h : Inv s) (e : ErrCode) : Inv (s.raise e) :=
  { h with err := e.code_le_nine, fresh := nofun }

/-- A command keeps the invariant: its output is written where OUT_LEN says, and a header it decodes has the length
relation. -/
theorem Inv.exec {i : Instr} (h : Inv s) (ht : exec i s = .next t) : Inv t := by
  obtain ⟨hdone, herr⟩ := exec_status ht
  have hfresh : t.done = false → t.err = 0 := by simp [hdone]
  have hheader : t.phLength.toNat = t.phDlen.toNat + 1 ∨ (t.phLength = 0 ∧ t.phDlen = 0) := by
    obtain ⟨hlen, hdlen⟩ | hlen := exec_phLength ht
    · rw [hlen, hdlen]; exact h.header
    · left
      have := t.phDlen.isLt
      rw [hlen]; simp; omega
  obtain ⟨hmem, hout⟩ | ⟨b, hb, hmem, hout⟩ := exec_memory ht
  · exact ⟨hmem ▸ h.memory, hout ▸ h.outLen, by rw [hmem, hout]; exact h.output, herr, hfresh, hheader⟩
  · obtain ⟨⟨hlen, hholds⟩, -⟩ := outputs_of hmem hout hb
    refine ⟨hmem ▸ putOutput_wf hb h.memory, hlen ▸ hb, fun k hk => ?_, herr, hfresh, hheader⟩
    rw [hholds k (hlen ▸ hk)]; rfl

theorem Inv.runCommand (h : Inv s) (ht : runCommand w s = .next t) : Inv t := by
  cases hd : decodeWord w with
  | ok i => exact h.exec (runCommand_of_decodeWord hd s ▸ ht)
  | error r =>
    rw [runCommand_of_reject hd, fail_eq_next] at ht
    exact ht ▸ h.raise .illegalCommand

theorem Inv.writeReg (h : Inv s) (r : Reg) (v : Word) : Inv (writeReg r v s) := by
  cases r <;> exact h.of_eq

theorem Inv.writeWordAt (h : Inv s) (off : Nat) (v : Word) : Inv (writeWordAt off v s) := by
  unfold Machine.writeWordAt
  split
  · exact h.writeReg _ v
  · exact h

/-- A host's byte write lands in IN_BUF or nowhere (20_memory.md R62). -/
theorem Inv.writeByteAt {off : Nat} (h : Inv s) (hlo : inBase ≤ off) (x : Byte) : Inv (writeByteAt off x s) := by
  unfold Machine.writeByteAt
  split
  · next hoff =>
    have hend : off < bufEnd := Nat.lt_trans hoff (by decide)
    refine { h with memory := Memory.wf_write x hlo hend h.memory, output := fun k hk => ?_ }
    rw [Memory.read_write_other _ x (by omega)]
    exact h.output k hk
  · exact h

theorem Inv.access {a : BusAccess} (h : Inv s) (ht : access a s = .next t) : Inv t := by
  cases a with
  | read off n =>
    obtain ⟨r, rfl⟩ := memRead_eq_next ht
    exact h.of_eq
  | write off n v =>
    have h' : Inv { s with response := some .done } := h.of_eq
    obtain hrun | rfl | ⟨hlo, rfl⟩ := memWrite_eq_next ht
    · exact h'.runCommand hrun
    · exact h'.writeWordAt off v
    · exact h'.writeByteAt hlo _

theorem Inv.reset : Inv State.reset where
  memory := Memory.wf_reset
  outLen := Nat.zero_le _
  output := nofun
  err := Nat.zero_le _
  fresh := fun _ => rfl
  header := .inr ⟨rfl, rfl⟩

theorem Inv.handle {e : HostEvent} (h : Inv s) (ht : handle e s = .next t) : Inv t := by
  cases e with
  | access a =>
    simp only [Machine.handle] at ht
    split at ht
    · cases ht
    · exact h.access ht
  | assertReset => cases ht; exact Inv.reset.of_eq
  | releaseReset => cases ht; exact h.of_eq

theorem Inv.step (h : Inv s) (ht : step s = .next t) : Inv t := by
  cases he : s.events with
  | nil =>
    simp only [Machine.step, he] at ht
    cases ht; exact h
  | cons e rest =>
    rw [step_of_event he] at ht
    exact Inv.handle h.of_eq ht

end Sys2Proof.Machine
end

section
/-! The statements about the state (10_state.md): its invariant, its reserved words, what all commands leave alone, the command
port and the reset values. -/

namespace Sys2Proof.Machine

/-- Settles O11: an event is a bus transaction or a change of the reset input, and each keeps the invariant. -/
theorem stepKeepsTheInvariant : Obligations.StepKeepsTheInvariant := fun _ _ h ht => h.step ht

/-- Settles O12: the invariant has every byte below OUT_LEN written. -/
theorem outputBytesCanBeRead : Obligations.OutputBytesCanBeRead := by
  intro s k rest hinv hr hk he
  obtain ⟨v, hv⟩ := Option.isSome_iff_exists.mp (hinv.output k hk)
  refine ⟨v, hv, ?_⟩
  rw [step_of_access hr he]
  exact memRead_byte (accepted_outBuf (Nat.lt_of_lt_of_le hk hinv.outLen)) hv

/-- Settles O15: the register map has nothing at a reserved word, so a read answers 0 and a write stores nothing. -/
theorem reservedWordsReadZeroAndIgnoreWrites : Obligations.ReservedWordsReadZeroAndIgnoreWrites := by
  intro s off v rest hr halign hoff
  have hacc : accepted off 4 = true := accepted_iff.mpr (by omega)
  have hres : 0x098 ≤ off := by omega
  have hcmd : off ≠ cmdOffset := by unfold cmdOffset; omega
  constructor <;> intro he <;> rw [step_of_access hr he]
  · show memRead off 4 _ = _
    rw [memRead_word hacc, readWordAt_reserved hres]
  · show memWrite off 4 v _ = _
    rw [memWrite_word hacc hcmd, writeWordAt_reserved hres]

/-- Settles O51: a command that answers raised one of its errors, or succeeded with code 0. -/
theorem failingCommandsChangeOnlyStatus : Obligations.FailingCommandsChangeOnlyStatus := by
  intro i s t h
  obtain ⟨e, hcode, rfl⟩ | ⟨v, u, _, rfl⟩ := exec_cases h
  · exact ⟨rfl, fun _ => ⟨hcode, rfl⟩⟩
  · exact ⟨rfl, fun herr => absurd rfl herr⟩

/-- Settles O54: nothing of the host's is listed as written by a command, and an output lies in OUT_BUF. -/
theorem commandsLeaveHostRegistersAlone : Obligations.CommandsLeaveHostRegistersAlone := by
  intro i s t h
  have hw := exec_eq_takeWrites h
  have keeps {α : Type} (f : State → α) : f t = f (s.takeWrites i t) := congrArg f hw
  refine ⟨keeps State.ctrl, keeps State.argSubsys, keeps State.argApid, keeps State.argSeq, keeps State.argDlen,
    keeps State.timeIn, keeps State.inLen, fun _ ha => exec_read_outside_output h (.inl ha), keeps State.resetAsserted,
    keeps State.events, keeps State.response, fun hi => ?_, exec_samples_cases h⟩
  rw [hw]
  simp [State.takeWrites, hi]

/-- Settles O55: the frame of every command is what the register map does not list it as writing. -/
theorem onlyListedCommandsWrite : Obligations.OnlyListedCommandsWrite := by
  intro i s t h
  have hw := exec_eq_takeWrites h
  refine ⟨fun hi => ?_, fun hi => ?_, fun hi => ?_, fun hi => ?_, fun hi => ?_, fun hi => ?_, fun hi => ?_,
    fun _ _ ha => exec_read_outside_output h (.inr ha)⟩ <;>
  · rw [hw]
    simp [State.takeWrites, hi]

/-- Settles O4: the CMD write runs its word, and the word decodes to the command. -/
theorem stepRunsTheDecodedCommand : Obligations.StepRunsTheDecodedCommand := fun _ _ _ _ hr he hd =>
  (step_of_cmdWrite hr he).trans (runCommand_of_decodeWord hd _)

/-- Settles O5: the placed event is the CMD write of a word that decodes to the command. -/
theorem placedWordRunsNext : Obligations.PlacedWordRunsNext := by
  intro s i
  rw [State.withFetchWord, tableWord_toNat, step_of_cmdWrite rfl rfl, runCommand_of_decodeWord (decodeWord_encode i)]
  rfl

/-- Settles O7, register by register; the FIELD registers as one case. -/
theorem resetGivesEveryRegisterItsValue : Obligations.ResetGivesEveryRegisterItsValue := by
  refine ⟨fun r => ?_, Memory.read_nil, rfl⟩
  cases r with
  | field i => simp [readReg]
  | _ => rfl

end Sys2Proof.Machine
end

section
/-! Bus transactions to a register, to a buffer byte and to neither, one equation for each outcome (20_memory.md R61 to R64). -/

namespace Sys2Proof.Machine

variable {s t : State} {off n : Nat} {v : Word} {rest : List HostEvent} {r r' : Reg}

/-! A transaction that is performed. -/

/-- With reset released, a read is performed. -/
theorem step_of_read (hr : s.resetAsserted = false) (h : s.events = .access (.read off n) :: rest) :
    step s = memRead off n { s with events := rest } := step_of_access hr h

/-- With reset released, a write is performed. -/
theorem step_of_write (hr : s.resetAsserted = false) (h : s.events = .access (.write off n v) :: rest) :
    step s = memWrite off n v { s with events := rest } := step_of_access hr h

/-- A transaction that is answered was not refused. -/
theorem access_of_handle {a : BusAccess} (h : handle (.access a) s = .next t) : access a s = .next t := by
  simp only [handle] at h
  split at h
  · cases h
  · exact h

/-! Accesses that are not accepted. -/

theorem memRead_not_accepted (h : accepted off n = false) (s : State) : memRead off n s = .fault .accessError := by
  simp [memRead, h]

theorem memWrite_not_accepted (h : accepted off n = false) (v : Word) (s : State) :
    memWrite off n v s = .fault .accessError := by
  simp [memWrite, h]

/-! Buffer bytes. -/

theorem memRead_byte_unwritten (h : accepted off 1 = true) (hx : s.mem.read off = none) :
    memRead off 1 s = .fault .unwrittenByte := by
  simp [memRead, h, hx]

theorem memWrite_byte (h : accepted off 1 = true) (v : Byte) (s : State) :
    memWrite off 1 (v.setWidth 32) s = .next (writeByteAt off v { s with response := some .done }) := by
  simp [memWrite, h]

theorem writeByteAt_inBuf {k : Nat} (hk : k < 256) (v : Byte) (s : State) :
    writeByteAt (inBase + k) v s = { s with mem := s.mem.write (inBase + k) v } :=
  if_pos (Nat.add_lt_add_left hk inBase)

theorem writeByteAt_outBuf (k : Nat) (v : Byte) (s : State) : writeByteAt (outBase + k) v s = s :=
  if_neg (Nat.not_lt.mpr (Nat.le_add_right outBase k))

/-! Registers: where they are, what they read, and what a write to one leaves alone. -/

theorem readWordAt_offset (r : Reg) (s : State) : readWordAt r.offset s = readReg r s := by simp [readWordAt]

theorem writeWordAt_offset (r : Reg) (v : Word) (s : State) : writeWordAt r.offset v s = writeReg r v s := by
  simp [writeWordAt]

/-- STATUS reads ERR in bits [3:0] and DONE as bit [8] (10_state.md R24). -/
theorem State.statusWord_toNat (s : State) : s.statusWord.toNat = s.err.toNat + (if s.done then 256 else 0) := by
  have herr : (s.err.setWidth 32).toNat = s.err.toNat := BitVec.toNat_setWidth_of_le (by decide)
  have hlt : s.err.toNat < 2 ^ 8 := Nat.lt_trans s.err.isLt (by decide)
  rw [State.statusWord, BitVec.toNat_or, herr]
  cases s.done with
  | false => exact Nat.or_zero _
  | true => exact Nat.or_two_pow_eq_add_of_lt hlt

@[simp] theorem writeReg_mem (r : Reg) (v : Word) (s : State) : (writeReg r v s).mem = s.mem := by cases r <;> rfl
@[simp] theorem writeReg_resetAsserted (r : Reg) (v : Word) (s : State) :
    (writeReg r v s).resetAsserted = s.resetAsserted := by cases r <;> rfl
@[simp] theorem writeReg_samples (r : Reg) (v : Word) (s : State) : (writeReg r v s).samples = s.samples := by
  cases r <;> rfl
@[simp] theorem writeReg_events (r : Reg) (v : Word) (s : State) : (writeReg r v s).events = s.events := by
  cases r <;> rfl
@[simp] theorem writeReg_response (r : Reg) (v : Word) (s : State) : (writeReg r v s).response = s.response := by
  cases r <;> rfl

/-- CTRL holds the low three bits of what is written to it (10_state.md R22). -/
theorem readReg_writeReg_ctrl (v : Word) (s : State) : readReg .ctrl (writeReg .ctrl v s) = v &&& 7 := by
  apply BitVec.eq_of_toNat_eq
  calc ((v.setWidth 3).setWidth 32).toNat
    _ = v.toNat % 2 ^ 3 := by rw [BitVec.toNat_setWidth_of_le (by decide), BitVec.toNat_setWidth]
    _ = (v &&& 7).toNat := (Nat.and_two_pow_sub_one_eq_mod v.toNat 3).symm

theorem readReg_writeReg_field (i : Fin Config.nField) (v : Word) (s : State) :
    readReg (.field i) (writeReg (.field i) v s) = v := by
  simp [readReg, writeReg]

/-- A write stores in the register it goes to and in no other (20_memory.md R61). -/
theorem readReg_writeReg_other (h : r' ≠ r) (v : Word) (s : State) : readReg r' (writeReg r v s) = readReg r' s := by
  cases r with
  | field i =>
    cases r' with
    | field j =>
      have hij : i.val ≠ j.val := fun hval => h (congrArg Reg.field (Fin.ext hval.symm))
      simp [readReg, writeReg, hij]
    | _ => rfl
  -- r' is another register and reads as before, or it is r, against h
  | ctrl | argSubsys | argApid | argSeq | argDlen | timeIn | inLen => cases r' <;> trivial
  | _ => rfl

end Sys2Proof.Machine
end

section
/-! The statements about the host window (20_memory.md): register accesses, byte accesses, and the accesses that fault. -/

namespace Sys2Proof.Machine

/-- Settles O13: the register map has each register at its offset, and a register is read with zeros above its used bits. -/
theorem registerReadsReturnTheirValue : Obligations.RegisterReadsReturnTheirValue := by
  refine ⟨fun s r rest hr he => ?_, fun s r => ?_, fun _ => rfl, fun _ _ => rfl, fun r => by cases r <;> rfl⟩
  · rw [step_of_read hr he, memRead_word (accepted_offset r), readWordAt_offset]
    rfl
  · cases r with
    | status => exact s.statusWord_toNat
    | cmd | result | argSubsys | argApid | argSeq | argDlen | timeIn | inLen | field i => rfl
    | _ => exact BitVec.toNat_setWidth_of_le (by decide)

/-- Settles O14: the write goes to its register, and what it reads back is decided register by register. -/
theorem registerWritesStoreOnlyRwRegisters : Obligations.RegisterWritesStoreOnlyRwRegisters := by
  intro s r v rest hr hcmd he
  have hoff : r.offset ≠ cmdOffset := fun h => hcmd (Reg.offset_eq_cmd h)
  refine ⟨writeReg r v { s with events := rest, response := some .done }, ?_, ?_,
    fun r' h => readReg_writeReg_other h v _, by simp, by simpa using hr, by simp, by simp, by simp⟩
  · rw [step_of_write hr he, memWrite_word (accepted_offset r) hoff, writeWordAt_offset]
  · cases r with
    | ctrl => exact readReg_writeReg_ctrl v _
    | field i => exact readReg_writeReg_field i v _
    | _ => rfl

/-- Settles O16: IN_BUF ends where OUT_BUF begins, and a byte write stores below that only. -/
theorem byteWritesReachOnlyInBuf : Obligations.ByteWritesReachOnlyInBuf := by
  intro s k v rest hr hk
  constructor <;> intro he
  · refine ⟨{ s with mem := s.mem.write (inBase + k) v, events := rest, response := some .done }, ?_, rfl,
      Memory.read_write_same .., fun a ha => Memory.read_write_other _ v ha⟩
    rw [step_of_write hr he, memWrite_byte (accepted_inBuf hk), writeByteAt_inBuf hk]
  · rw [step_of_write hr he, memWrite_byte (accepted_outBuf hk), writeByteAt_outBuf]

/-- Settles O17: every buffer byte is accepted, so the read turns on whether the byte is written. -/
theorem byteReadsReturnWrittenBytes : Obligations.ByteReadsReturnWrittenBytes := by
  intro s a rest hr hlo hhi he
  have hacc : accepted a 1 = true := accepted_iff.mpr (.inr ⟨rfl, hlo, hhi⟩)
  rw [step_of_read hr he]
  exact ⟨fun v hv => memRead_byte hacc hv, fun hv => memRead_byte_unwritten hacc hv⟩

/-- Settles O18: the two accepted kinds of access are ruled out. -/
theorem unacceptedAccessesFault : Obligations.UnacceptedAccessesFault := by
  intro s off n v rest hr hword hbyte he
  have hacc : accepted off n = false := Bool.eq_false_iff.mpr fun h => (accepted_iff.mp h).elim hword hbyte
  obtain he | he := he
  · exact (step_of_read hr he).trans (memRead_not_accepted hacc _)
  · exact (step_of_write hr he).trans (memWrite_not_accepted hacc v _)

/-- Settles O19: an answered read was not refused, and changes the bus's answer only. -/
theorem readsHaveNoSideEffect : Obligations.ReadsHaveNoSideEffect := by
  intro s t off n rest he ht
  rw [step_of_event he] at ht
  obtain ⟨r, rfl⟩ := memRead_eq_next (access_of_handle ht)
  rfl

end Sys2Proof.Machine
end

section
/-! The command words (30_encoding.md): a word that decodes has the three fields of its command's word, so it is that word. -/

namespace Sys2Proof.Machine

variable {w : Word} {i : Instr}

/-- A word decodes when its ZERO field is 0 and the command map has its family and function (30_encoding.md R81, R84). -/
theorem decodeWord_eq_ok (h : decodeWord w = .ok i) :
    (Cmd32.ofWord w).zero = 0 ∧ commandAt (Cmd32.ofWord w).fam.toNat (Cmd32.ofWord w).fn.toNat = some i := by
  simp only [decodeWord] at h
  split at h
  · cases h
  next hzero =>
    split at h
    · cases h
    · split at h
      next j hj =>
        cases h
        exact ⟨by simpa [Cmd32.zeroOk] using hzero, hj⟩
      · cases h

theorem zero_ofWord_encode (i : Instr) : (Cmd32.ofWord (encode i)).zero = 0 := by cases i <;> rfl

/-- A word and the word of the command it decodes to have the same fields. -/
theorem ofWord_eq_of_decodeWord (h : decodeWord w = .ok i) : Cmd32.ofWord w = Cmd32.ofWord (encode i) := by
  obtain ⟨hzero, hcmd⟩ := decodeWord_eq_ok h
  obtain ⟨hfam, hfn⟩ := commandAt_eq_some hcmd
  rw [Cmd32.mk.injEq]
  exact ⟨hzero.trans (zero_ofWord_encode i).symm, BitVec.eq_of_toNat_eq hfam, BitVec.eq_of_toNat_eq hfn⟩

/-- Settles O1: the three fields make up the whole word, so two words with the same fields are one. -/
theorem commandWordsDecodeExactly : Obligations.CommandWordsDecodeExactly := by
  intro w i
  constructor
  · intro h
    rw [← Cmd32.toWord_ofWord w, ofWord_eq_of_decodeWord h, Cmd32.toWord_ofWord]
  · rintro rfl
    exact decodeWord_encode i

/-- Settles O2: each legal word is its command's own word; the decoder evaluates to a reject on the other three. -/
theorem listedWordsDecode : Obligations.ListedWordsDecode :=
  ⟨decodeWord_encode .crcVerify, decodeWord_encode .timeDecode, decodeWord_encode .dirCount, decodeWord_encode .phEncode,
    decodeWord_encode .plDecode, rfl, rfl, rfl, rfl⟩

end Sys2Proof.Machine
end

section
/-! The host's loops (30_encoding.md R92), run one transaction at a time from any state. -/

namespace Sys2Proof.Machine

variable {s : State} {rest : List HostEvent}

/-- W32 of a register that starts no command stores in that register and answers. -/
theorem step_w32 {r : Reg} {v : Word} (hr : s.resetAsserted = false) (hc : r ≠ .cmd) (he : s.events = w32 r v :: rest) :
    step s = .next (writeReg r v { s with events := rest, response := some .done }) := by
  rw [step_of_write hr he, memWrite_word (accepted_offset r) (fun h => hc (Reg.offset_eq_cmd h)), writeWordAt_offset]

/-- W8 IN[k] stores the byte. -/
theorem step_w8In {k : Nat} {v : Byte} (hr : s.resetAsserted = false) (hk : k < 256) (he : s.events = w8In k v :: rest) :
    step s = .next { s with mem := s.mem.write (inBase + k) v, events := rest, response := some .done } := by
  rw [step_of_write hr he, memWrite_byte (accepted_inBuf hk), writeByteAt_inBuf hk]

/-- R8 OUT[k] of a written byte changes nothing but the bus's answer. -/
theorem step_r8Out {k : Nat} {v : Byte} (hr : s.resetAsserted = false) (hk : k < 256)
    (hv : s.mem.read (outBase + k) = some v) (he : s.events = r8Out k :: rest) :
    step s = .next { s with events := rest, response := some (.byte v) } := by
  rw [step_of_read hr he]
  exact memRead_byte (accepted_outBuf hk) hv

/-- R32 changes nothing but the bus's answer. -/
theorem step_r32 {r : Reg} (hr : s.resetAsserted = false) (he : s.events = r32 r :: rest) :
    step s = .next { s with events := rest, response := some (.word (readReg r s)) } := by
  rw [step_of_read hr he, memRead_word (accepted_offset r), readWordAt_offset]
  rfl

/-- A byte written to IN_BUF leaves what OUT_BUF holds. -/
theorem Holds.write_inBuf {t : State} {j k : Nat} {v : Byte} {b : List Byte} (h : Holds s (outBase + j) b)
    (ht : t.mem = s.mem.write (inBase + k) v) (hk : k < 256) : Holds t (outBase + j) b := by
  intro n hn
  rw [ht, Memory.read_write_other _ v (by simp only [inBase, outBase]; omega)]
  exact h n hn

/-- What holds of a run of bytes holds of its tail, one offset further. -/
theorem Holds.tail {base : Nat} {v : Byte} {b : List Byte} (h : Holds s base (v :: b)) : Holds s (base + 1) b := by
  intro n hn
  rw [Nat.add_assoc, Nat.add_comm 1]
  exact h (n + 1) (Nat.succ_lt_succ hn)

/-- The byte loop of COPYOUT, listed against state s and run from any state u that holds the same output bytes: two
transactions a byte, and the bytes stand in IN_BUF. -/
theorem steps_copyBytes (b : List Byte) : ∀ (k : Nat) (u : State) (rest : List HostEvent),
    u.resetAsserted = false → k + b.length ≤ 256 → Holds s (outBase + k) b → Holds u (outBase + k) b →
    u.events = copyBytes s k b.length ++ rest →
    ∃ r, steps (2 * b.length) u =
      .next { u with mem := u.mem.writeBytes (inBase + k) b, events := rest, response := r } := by
  induction b with
  | nil =>
    rintro k u rest - - - - rfl
    exact ⟨u.response, rfl⟩
  | cons v b ih =>
    intro k u rest hr hl hs hu he
    rw [List.length_cons] at hl
    have hk : k < 256 := by omega
    have hsv : s.mem.read (outBase + k) = some v := hs 0 (Nat.succ_pos _)
    have huv : u.mem.read (outBase + k) = some v := hu 0 (Nat.succ_pos _)
    have he : u.events = r8Out k :: w8In k v :: (copyBytes s (k + 1) b.length ++ rest) := by
      rw [he, List.length_cons, copyBytes, hsv]
      rfl
    obtain ⟨r, hrest⟩ := ih (k + 1)
      { u with mem := u.mem.write (inBase + k) v, events := copyBytes s (k + 1) b.length ++ rest, response := some .done }
      rest hr (by omega) hs.tail (hu.tail.write_inBuf (j := k + 1) rfl hk) rfl
    refine ⟨r, ?_⟩
    calc steps (2 * b.length + 1 + 1) u
      _ = steps (2 * b.length + 1) _ := steps_succ _ (step_r8Out hr hk huv he)
      _ = steps (2 * b.length) _ := steps_succ _ (step_w8In (v := v) hr hk rfl)
      _ = _ := hrest

/-- Once a loop has written b from IN[0] upwards and only the write of IN_LEN is left of it, one more step makes b the
input; nothing else changes from before the loop. -/
theorem inputIs_of_steps {k : Nat} {b : List Byte} {r : Option BusResponse} (hr : s.resetAsserted = false)
    (hb : b.length ≤ 256)
    (h : steps k s = .next { s with mem := s.mem.writeBytes inBase b
                                    events := w32 .inLen (BitVec.ofNat 32 b.length) :: rest, response := r }) :
    ∃ t, steps (k + 1) s = .next t ∧ InputIs t b ∧
      (∀ a, a < inBase ∨ inBase + b.length ≤ a → t.mem.read a = s.mem.read a) ∧
      t = { s with mem := t.mem, inLen := t.inLen, events := rest, response := some .done } := by
  refine ⟨_, (steps_add 1 h).trans (steps_succ 0 (step_w32 hr (by decide) rfl)), ⟨?_, hb, fun j hj => ?_⟩,
    fun a ha => ?_, rfl⟩
  · exact (BitVec.toNat_ofNat _ _).trans (Nat.mod_eq_of_lt (by omega))
  · exact Memory.read_writeBytes_at _ _ _ _ hj
  · exact Memory.read_writeBytes_outside _ _ _ _ ha

/-- Settles O20: the byte writes fill IN_BUF one after the other, and the last transaction sets IN_LEN. -/
theorem loadInFillsTheInputBuffer : Obligations.LoadInFillsTheInputBuffer := by
  intro s b rest hr hb he
  rw [loadIn, List.append_assoc] at he
  exact inputIs_of_steps hr hb (steps_loadBytes b 0 s _ hr (by omega) he)

/-- Settles O21: the loop reads OUT[k] and writes it to IN[k], for every k below OUT_LEN, and OUT_BUF lies past IN_BUF. -/
theorem copyOutMakesTheOutputTheInput : Obligations.CopyOutMakesTheOutputTheInput := by
  intro s b rest hr hb hout he
  obtain ⟨hlen, hheld⟩ := hout
  have he : s.events = r32 .outLen :: (copyBytes s 0 b.length ++ (w32 .inLen (BitVec.ofNat 32 b.length) :: rest)) := by
    simp [he, copyOut, hlen]
  obtain ⟨r, hcopy⟩ := steps_copyBytes b 0
    { s with events := copyBytes s 0 b.length ++ (w32 .inLen (BitVec.ofNat 32 b.length) :: rest)
             response := some (.word (readReg .outLen s)) } _ hr (by omega) hheld hheld rfl
  obtain ⟨t, ht, hin, hframe, heq⟩ := inputIs_of_steps hr hb ((steps_succ _ (step_r32 hr he)).trans hcopy)
  refine ⟨t, ht, hin, ⟨?_, fun k hk => ?_⟩, hframe, heq⟩
  · rw [heq]
    exact hlen
  · rw [hframe _ (.inr (by simp only [inBase, outBase]; omega))]
    exact hheld k hk

end Sys2Proof.Machine
end

section
/-! The wire layout of a packet (30_encoding.md R86, R87) in numbers: what stands at each place of it, and what the machine's
checksum, payload and header codecs make of that. -/

namespace Sys2Proof.Rule

/-- A packet before its checksum: header, time and payload (30_encoding.md R86). -/
def packetBody (s q coarse fine : Nat) (p : List Byte) : List Byte :=
  header (s + 1) q (plen s + 3) ++ beBytes 3 coarse ++ beBytes 1 fine ++ p

variable (s q coarse fine : Nat) (p : List Byte)

theorem packet_eq : packet s q coarse fine p =
    packetBody s q coarse fine p ++ beBytes 2 (crc16 (packetBody s q coarse fine p)) := rfl

@[simp] theorem length_header (a q d : Nat) : (header a q d).length = 6 := by simp [header]

@[simp] theorem length_packetBody : (packetBody s q coarse fine p).length = 10 + p.length := by
  simp [packetBody]
  omega

@[simp] theorem length_packet : (packet s q coarse fine p).length = 12 + p.length := by
  simp [packet_eq]
  omega

theorem take_body_packet : (packet s q coarse fine p).take (10 + p.length) = packetBody s q coarse fine p := by
  rw [packet_eq, ← length_packetBody s q coarse fine p, List.take_left]

/-- The header comes first, and the time second. -/
theorem packet_eq_header_append : ∃ x, packet s q coarse fine p =
    header (s + 1) q (plen s + 3) ++ (beBytes 3 coarse ++ beBytes 1 fine ++ x) := by
  refine ⟨p ++ beBytes 2 (crc16 (packetBody s q coarse fine p)), ?_⟩
  simp only [packet_eq, packetBody, List.append_assoc]

/-- The payload follows ten bytes of header and time. -/
theorem drop_take_packet : ((packet s q coarse fine p).drop 10).take p.length = p := by
  rw [List.take_drop, take_body_packet]
  exact List.drop_left' (by simp)

end Sys2Proof.Rule

namespace Sys2Proof.Machine

/-! The checksum. -/

theorem crcUpdate_toNat (c : Half) (b : List Byte) : (crcUpdate c b).toNat = Rule.crcUpdate c.toNat b := by
  induction b generalizing c with
  | nil => rfl
  | cons x b ih => exact (ih (crcByte c x)).trans (by rw [crcByte_toNat, Rule.crcUpdate])

theorem crc16_toNat (b : List Byte) : (crc16 b).toNat = Rule.crc16 b := crcUpdate_toNat crcInitial b

theorem crc16_eq_ofNat (b : List Byte) : crc16 b = BitVec.ofNat 16 (Rule.crc16 b) := by
  rw [← crc16_toNat, BitVec.ofNat_toNat, BitVec.setWidth_eq]

/-! The payload. -/

theorem plen_eq_rulePlen (y : Subsystem) : plen y = Rule.plen (subsystemIndex y) := by cases y <;> rfl

/-- The tables of 44_payload_mux.md R181 have each field where the widths before it end. -/
theorem layout_getElem? (y : Subsystem) (i : Fin Config.nField) : (Rule.layout (subsystemIndex y))[i.val]? =
    (schema y)[i.val]?.map fun t => (t, (((schema y).take i.val).map fieldWidth).sum) := by
  revert i
  cases y <;> decide

/-- dec_payload reads each field at its offset (44_payload_mux.md R186). -/
theorem decPayload_eq (y : Subsystem) (p : List Byte) : decPayload y p =
    Vector.ofFn fun i => BitVec.ofNat 32 (Rule.fieldValue (subsystemIndex y) p i.val) := by
  unfold decPayload
  congr 1
  funext i
  rw [decFields_getD, Rule.fieldValue, layout_getElem?]
  by_cases h : i.val < (schema y).length
  · simp [h, fieldWidth_eq]
  · simp [h]

/-! The header and the time. -/

/-- The fields of a first header word 0x0800 OR a (30_encoding.md R87, 43_primary_header.md R160). -/
theorem fields_of_word1 {w : Half} {a : Nat} (ha : a ≤ 0x7FF) (h : w.toNat = 0x0800 + a) :
    versionOf w = 0 ∧ typeOf w = 0 ∧ shfOf w = 1 ∧ apidOf w = BitVec.ofNat 11 a := by
  refine ⟨?_, ?_, ?_, ?_⟩ <;> apply BitVec.eq_of_toNat_eq <;>
    simp [versionOf, typeOf, shfOf, apidOf, BitVec.extractLsb'_toNat, Nat.shiftRight_eq_div_pow, h] <;> omega

/-- The fields of a second header word 0xC000 OR q (30_encoding.md R87, 43_primary_header.md R160). -/
theorem fields_of_word2 {w : Half} {q : Nat} (hq : q ≤ 0x3FFF) (h : w.toNat = 0xC000 + q) :
    seqfOf w = 3 ∧ seqOf w = BitVec.ofNat 14 q := by
  refine ⟨?_, ?_⟩ <;> apply BitVec.eq_of_toNat_eq <;>
    simp [seqfOf, seqOf, BitVec.extractLsb'_toNat, Nat.shiftRight_eq_div_pow, h] <;> omega

/-- The three words of a header whose operands fit their fields. -/
theorem headerWord_header {a q d : Nat} (ha : a ≤ 0x7FF) (hq : q ≤ 0x3FFF) (hd : d ≤ 0xFFFF) :
    (headerWord 0 (Rule.header a q d)).toNat = 0x0800 + a ∧ (headerWord 1 (Rule.header a q d)).toNat = 0xC000 + q ∧
    (headerWord 2 (Rule.header a q d)).toNat = d := by
  obtain ⟨h0, h1, h2⟩ := wordAt_header a q d []
  rw [List.append_nil] at h0 h1 h2
  refine ⟨?_, ?_, ?_⟩ <;> rw [headerWord_toNat]
  · exact h0.trans (Nat.mod_eq_of_lt (by omega))
  · exact h1.trans (Nat.mod_eq_of_lt (by omega))
  · exact h2.trans (Nat.mod_eq_of_lt (by omega))

/-- The header registers after the words of a header (43_primary_header.md R160, R161). -/
theorem putHeader_of_words {w1 w2 w3 : Half} {a q d : Nat} (ha : a ≤ 0x7FF) (hq : q ≤ 0x3FFF)
    (h1 : w1.toNat = 0x0800 + a) (h2 : w2.toNat = 0xC000 + q) (h3 : w3.toNat = d) (s : State) :
    s.putHeader w1 w2 w3 =
      { s with phVersion := 0, phType := 0, phShf := 1, phApid := BitVec.ofNat 11 a, phSeqf := 3
               phSeq := BitVec.ofNat 14 q, phDlen := BitVec.ofNat 16 d, phLength := BitVec.ofNat 17 (d + 1) } := by
  obtain ⟨hver, htype, hshf, hapid⟩ := fields_of_word1 ha h1
  obtain ⟨hseqf, hseq⟩ := fields_of_word2 hq h2
  obtain rfl : w3 = BitVec.ofNat 16 d := by rw [← h3, BitVec.ofNat_toNat, BitVec.setWidth_eq]
  have hlen : (BitVec.ofNat 16 d).setWidth 17 + 1 = BitVec.ofNat 17 (d + 1) := by
    apply BitVec.eq_of_toNat_eq
    rw [BitVec.toNat_ofNat] at h3
    simp [h3]
  rw [State.putHeader, hver, htype, hshf, hapid, hseqf, hseq, hlen]

/-! The fields of a whole packet. -/

section

variable (y q coarse fine : Nat) (p : List Byte)

/-- The time follows the six bytes of the header (41_timecode.md R123). -/
theorem timeOfBytes_drop_packet : timeOfBytes ((Rule.packet y q coarse fine p).drop 6) =
    (BitVec.ofNat 24 coarse, BitVec.ofNat 8 fine) := by
  obtain ⟨x, hx⟩ := Rule.packet_eq_header_append y q coarse fine p
  have hcoarse : (Rule.beBytes 3 coarse ++ Rule.beBytes 1 fine ++ x).take 3 = Rule.beBytes 3 coarse := by simp
  have hfine : (Rule.beBytes 3 coarse ++ Rule.beBytes 1 fine ++ x).getD 3 0 = BitVec.ofNat 8 fine := by
    simp [Rule.beBytes]
  rw [hx, List.drop_left' (Rule.length_header ..), timeOfBytes, hcoarse, hfine, unbe_eq_beNat, Rule.beNat_beBytes]
  exact congrArg (·, _) (BitVec.eq_of_toNat_eq (by simp))

/-- The last two bytes are the checksum of those before them (40_checksum.md R105). -/
theorem trailerOf_packet : trailerOf (Rule.packet y q coarse fine p).length (Rule.packet y q coarse fine p) =
    crc16 (Rule.packetBody y q coarse fine p) := by
  rw [trailerOf, Rule.packet_eq, List.length_append, Rule.length_beBytes, Nat.add_sub_cancel, List.drop_left,
    unbe_eq_beNat, Rule.beNat_beBytes, crc16_eq_ofNat]
  exact BitVec.eq_of_toNat_eq (by simp)

theorem bodyCrc_packet : bodyCrc (Rule.packet y q coarse fine p).length (Rule.packet y q coarse fine p) =
    crc16 (Rule.packetBody y q coarse fine p) := by
  rw [bodyCrc, Rule.packet_eq, List.length_append, Rule.length_beBytes, Nat.add_sub_cancel, List.take_left]

end

end Sys2Proof.Machine
end

section
/-! PKT_PARSE on a packet of the wire layout (45_framer.md R211). -/

namespace Sys2Proof.Machine

theorem withInput_of_read {s : State} {first count : Nat} {b : List Byte}
    (h : s.mem.readBytes (inBase + first) count = some b) (k : List Byte → Out) : withInput first count s k = k b := by
  simp [withInput, h]

/-- Where every condition of its effect is met, each check of PKT_PARSE passes and it commits that effect. -/
theorem exec_pktParse_of_effect {s u : State} {v : Word} (h : Effect s v u .pktParse) :
    exec .pktParse s = succeed v u := by
  obtain ⟨h, b, y, ⟨hlen, hb⟩, hsix, hh, hfixed, hapid, hdlen, htotal, hcrc, rfl, rfl⟩ := h
  have hfixed : (!s.hdrChk || fixedFieldsOk (headerWord 0 h) (headerWord 1 h)) = true := by
    simpa [imp_iff_not_or] using hfixed
  have hcrc : (!s.crcChk || trailerOf s.inCount b == bodyCrc s.inCount b) = true := by
    simpa [imp_iff_not_or] using hcrc
  rw [exec, execPktParse, require_of_true hlen, require_true hsix, withInput_of_read hh, require_of_true hfixed,
    withApid_of_apid hapid, require_true htotal.ge, require_of_true (beq_iff_eq.mpr hdlen),
    require_of_true (beq_iff_eq.mpr htotal), withInput_of_read hb, require_of_true hcrc]

/-- What holds of a run of bytes holds of those it begins with. -/
theorem Holds.of_append {s : State} {base : Nat} {h x : List Byte} (hb : Holds s base (h ++ x)) : Holds s base h := by
  intro k hk
  rw [hb k (by rw [List.length_append]; omega), List.getElem_append_left hk]

/-- A packet of the wire layout meets every condition of PKT_PARSE, whatever CTRL is. -/
theorem effect_pktParse_packet {s : State} {y : Subsystem} {q coarse fine : Nat} {p : List Byte} (hq : q ≤ 0x3FFF)
    (hp : p.length = plen y) (hin : InputIs s (Rule.packet (subsystemIndex y) q coarse fine p)) :
    Effect s (BitVec.ofNat 32 (subsystemIndex y))
      { s with phVersion := 0, phType := 0, phShf := 1, phApid := BitVec.ofNat 11 (subsystemIndex y + 1)
               phSeqf := 3, phSeq := BitVec.ofNat 14 q
               phDlen := BitVec.ofNat 16 (plen y + 3), phLength := BitVec.ofNat 17 (plen y + 4)
               timeCoarse := BitVec.ofNat 24 coarse, timeFine := BitVec.ofNat 8 fine
               field := decPayload y p
               crcRx := crc16 (Rule.packetBody (subsystemIndex y) q coarse fine p)
               crcCalc := crc16 (Rule.packetBody (subsystemIndex y) q coarse fine p) } .pktParse := by
  have hy := subsystemIndex_le_six y
  have hpl := plen_le y
  obtain ⟨hlen, hmax, hheld⟩ := hin
  have hcount : s.inCount = (Rule.packet (subsystemIndex y) q coarse fine p).length := hlen
  have htotal : s.inCount = plen y + 12 := by rw [hcount, Rule.length_packet, hp, Nat.add_comm]
  have hheader : s.mem.readBytes inBase 6 = some (Rule.header (subsystemIndex y + 1) q (plen y + 3)) := by
    obtain ⟨x, hx⟩ := Rule.packet_eq_header_append (subsystemIndex y) q coarse fine p
    rw [hx, ← plen_eq_rulePlen] at hheld
    exact Memory.readBytes_eq_some.mpr ⟨Rule.length_header .., hheld.of_append⟩
  obtain ⟨h1, h2, h3⟩ := headerWord_header (a := subsystemIndex y + 1) (d := plen y + 3) (by omega) hq (by omega)
  obtain ⟨hver, htype, hshf, hapid⟩ := fields_of_word1 (by omega) h1
  obtain ⟨hseqf, -⟩ := fields_of_word2 hq h2
  refine ⟨_, _, y, ⟨s.inLenOk_iff.mpr (hlen.trans_le hmax), Memory.readBytes_eq_some.mpr ⟨hlen.symm, hheld⟩⟩, by omega,
    hheader, fun _ => ?fixed, ?apid, ?dlen, ?total, fun _ => ?crc, rfl, ?registers⟩
  case fixed => simp [fixedFieldsOk, hver, htype, hshf, hseqf]
  case apid => rw [hapid, BitVec.toNat_ofNat, Nat.mod_eq_of_lt (by omega)]
  case dlen => omega
  case total => rw [htotal, declaredTotal, h3]
  case crc => rw [hcount, trailerOf_packet, bodyCrc_packet]
  case registers =>
    rw [putHeader_of_words (by omega) hq h1 h2 h3, hcount, timeOfBytes_drop_packet, trailerOf_packet, bodyCrc_packet,
      ← hp, Rule.drop_take_packet]
    rfl

/-- Settles O47: a packet of the wire layout passes every check of PKT_PARSE. -/
theorem pktParseAcceptsEveryPacket : Obligations.PktParseAcceptsEveryPacket := by
  intro s i q coarse fine p hi hq _ _ hp hin
  obtain ⟨y, rfl⟩ := exists_subsystem hi
  have heffect := effect_pktParse_packet hq (hp.trans (plen_eq_rulePlen y).symm) hin
  rw [exec_pktParse_of_effect heffect, ← hp, Rule.take_body_packet, hp, decPayload_eq, plen_eq_rulePlen, crc16_eq_ofNat]
  rfl

end Sys2Proof.Machine
end

section
/-! The checksum: it streams, no step of it loses information, and a sequence's own checksum is the one trailer that leaves
no residue (40_checksum.md R106). -/

namespace Sys2Proof.Machine

theorem crcUpdate_append (c : Half) (a b : List Byte) : crcUpdate c (a ++ b) = crcUpdate (crcUpdate c a) b :=
  List.foldl_append

/-- Different accumulators stay different under the same bytes. -/
theorem crcUpdate_inj {c d : Half} {b : List Byte} (h : crcUpdate c b = crcUpdate d b) : c = d := by
  induction b generalizing c d with
  | nil => exact h
  | cons x b ih => exact crcByte_inj (ih h)

/-- A checksum folded over its own two bytes: the first leaves the low byte alone, moved up, and the second clears it. -/
theorem crcUpdate_be16_self (c : Half) : crcUpdate c (be16 c) = 0 := by
  have hcancel : c ^^^ ((c.extractLsb' 8 8).setWidth 16 <<< 8) = (c.extractLsb' 0 8).setWidth 16 := by
    conv => lhs; lhs; rw [half_split c]
    rw [BitVec.xor_comm, ← BitVec.xor_assoc, BitVec.xor_self, BitVec.zero_xor]
  have hfirst : crcByte c (c.extractLsb' 8 8) = (c.extractLsb' 0 8).setWidth 16 <<< 8 := by
    rw [crcByte, hcancel, crcShift8_low]
  calc crcUpdate c (be16 c)
    _ = crcByte (crcByte c (c.extractLsb' 8 8)) (c.extractLsb' 0 8) := rfl
    _ = crcShift8 0#16 := by rw [hfirst, crcByte, BitVec.xor_self]
    _ = 0 := by decide

theorem crcUpdate_be16_eq_zero {c v : Half} : crcUpdate c (be16 v) = 0 ↔ v = c := by
  constructor
  · intro h
    exact (crcUpdate_inj (h.trans (crcUpdate_be16_self v).symm)).symm
  · rintro rfl
    exact crcUpdate_be16_self v

/-- The last two bytes of a sequence are those of the trailer as a number. -/
theorem be16_trailerOf {b : List Byte} (h : 2 ≤ b.length) : be16 (trailerOf b.length b) = b.drop (b.length - 2) := by
  have hlen : (b.drop (b.length - 2)).length = 2 := by rw [List.length_drop]; omega
  have hback := Rule.beBytes_beNat (b.drop (b.length - 2))
  rw [hlen] at hback
  rw [be16_eq_beBytes, trailerOf_toNat b h, Rule.wordAt, List.take_of_length_le hlen.le, hback]

/-- A sequence leaves no residue exactly when its trailer is the checksum of the bytes before it (40_checksum.md R105). -/
theorem crc16_eq_zero_iff {b : List Byte} (h : 2 ≤ b.length) :
    crc16 b = 0 ↔ trailerOf b.length b = bodyCrc b.length b := by
  have hfold : crc16 b = crcUpdate (bodyCrc b.length b) (be16 (trailerOf b.length b)) := by
    rw [be16_trailerOf h, bodyCrc, crc16, crc16, ← crcUpdate_append, List.take_append_drop]
  rw [hfold, crcUpdate_be16_eq_zero]

end Sys2Proof.Machine
end

section
/-! The checksum's commands, each as one equation where its input is held (40_checksum.md R101 to R105). -/

namespace Sys2Proof.Machine

variable {s : State} {b : List Byte}

theorem require_inLenOk_of_inputIs (h : InputIs s b) (rest : Out) : require s.inLenOk .rangeError s rest = rest := by
  obtain ⟨hlen, hmax, -⟩ := h
  exact require_inLenOk (hlen.trans_le hmax) rest

theorem exec_crcInit (s : State) :
    exec .crcInit s = .next { s with crcAcc := 0xFFFF, result := 0xFFFF, err := 0, done := true } := rfl

theorem exec_crcFeed_of_inputIs (h : InputIs s b) : exec .crcFeed s =
    .next { s with crcAcc := crcUpdate s.crcAcc b, result := (crcUpdate s.crcAcc b).setWidth 32
                   err := 0, done := true } := by
  rw [exec, execCrcFeed, require_inLenOk_of_inputIs h, withInput_of_inputIs _ h]
  rfl

theorem exec_crcCompute_of_inputIs (h : InputIs s b) : exec .crcCompute s =
    .next { s with crcCalc := crc16 b, result := (crc16 b).setWidth 32, err := 0, done := true } := by
  rw [exec, execCrcCompute, require_inLenOk_of_inputIs h, withInput_of_inputIs _ h]
  rfl

theorem exec_crcAppend_of_inputIs (h : InputIs s b) (hb : b.length ≤ 254) : exec .crcAppend s =
    succeed ((crc16 b).setWidth 32) ({ s with crcCalc := crc16 b }.putOutput (b ++ be16 (crc16 b))) := by
  have hcount : s.inCount = b.length := h.1
  have hfit : s.inCount + 2 ≤ Config.outCap := Nat.add_le_add_right (hcount.trans_le hb) 2
  rw [exec, execCrcAppend, require_inLenOk_of_inputIs h, require_true hfit, withInput_of_inputIs _ h]

/-- Both range checks of CRC_APPEND raise the same error, so it is raised above 254 bytes. -/
theorem exec_crcAppend_of_gt (h : 254 < s.inLen.toNat) : exec .crcAppend s = stopsWith 8 s := by
  have hfit : ¬ s.inCount + 2 ≤ Config.outCap := by
    simp only [State.inCount, Config.outCap]
    omega
  rw [exec, execCrcAppend, require_false hfit]
  cases hok : s.inLenOk with
  | true => exact require_of_true rfl _ _ _
  | false => exact require_of_false rfl _ _ _

/-- Once two bytes are held, CRC_VERIFY turns on its comparison alone. -/
theorem exec_crcVerify_of_inputIs (h : InputIs s b) (hb : 2 ≤ b.length) : exec .crcVerify s =
    require (trailerOf b.length b == bodyCrc b.length b) .checksumMismatch s
      (succeed ((bodyCrc b.length b).setWidth 32)
        { s with crcRx := trailerOf b.length b, crcCalc := bodyCrc b.length b }) := by
  have hcount : s.inCount = b.length := h.1
  rw [exec, execCrcVerify, require_inLenOk_of_inputIs h, require_true (hcount ▸ hb), withInput_of_inputIs _ h, hcount]

theorem exec_crcVerify_of_lt (h : s.inLen.toNat < 2) : exec .crcVerify s = stopsWith 4 s := by
  rw [exec, execCrcVerify, require_inLenOk (by omega)]
  exact require_false (Nat.not_le.mpr h) _ _ _

theorem exec_crcVerify_match (h : InputIs s b) (hb : 2 ≤ b.length) (heq : trailerOf b.length b = bodyCrc b.length b) :
    exec .crcVerify s =
      .next { s with crcRx := trailerOf b.length b, crcCalc := bodyCrc b.length b
                     result := (bodyCrc b.length b).setWidth 32, err := 0, done := true } := by
  rw [exec_crcVerify_of_inputIs h hb, require_of_true (beq_iff_eq.mpr heq)]
  rfl

theorem exec_crcVerify_mismatch (h : InputIs s b) (hb : 2 ≤ b.length)
    (hne : trailerOf b.length b ≠ bodyCrc b.length b) : exec .crcVerify s = stopsWith 6 s := by
  rw [exec_crcVerify_of_inputIs h hb, require_of_false (beq_eq_false_iff_ne.mpr hne)]
  rfl

/-- The comparison of CRC_VERIFY in the rule's numbers (40_checksum.md R105). -/
theorem trailerOf_eq_bodyCrc_iff (hb : 2 ≤ b.length) : trailerOf b.length b = bodyCrc b.length b ↔
    Rule.wordAt b (b.length - 2) = Rule.crc16 (b.take (b.length - 2)) := by
  rw [← BitVec.toNat_inj, trailerOf_toNat b hb, bodyCrc, crc16_toNat]

end Sys2Proof.Machine
end

section
/-! The streamed checksum: CRC_INIT, then LOADIN and CRC_FEED for each piece (40_checksum.md R102, R106). -/

namespace Sys2Proof.Machine

variable {s : State} {c : Half} {rest : List HostEvent}

/-- The block has folded checksum c and answered with it, accepts transactions, and has rest before it. -/
structure CrcStreamed (c : Half) (rest : List HostEvent) (s : State) : Prop where
  resetAsserted : s.resetAsserted = false
  crcAcc : s.crcAcc = c
  result : s.result = c.setWidth 32
  err : s.err = 0
  events : s.events = rest

/-- CMD <mnemonic> runs that command. -/
theorem step_cmdEvent {i : Instr} (hr : s.resetAsserted = false) (he : s.events = cmdEvent i :: rest) :
    step s = exec i { s with events := rest, response := some .done } :=
  stepRunsTheDecodedCommand s (encode i) i rest hr he (decodeWord_encode i)

theorem step_cmd_crcInit (hr : s.resetAsserted = false) (he : s.events = cmdEvent .crcInit :: rest) :
    ∃ t, step s = .next t ∧ CrcStreamed crcInitial rest t :=
  ⟨_, (step_cmdEvent hr he).trans (exec_crcInit _), hr, rfl, rfl, rfl, rfl⟩

theorem step_cmd_crcFeed {b : List Byte} (hr : s.resetAsserted = false) (hin : InputIs s b)
    (he : s.events = cmdEvent .crcFeed :: rest) :
    ∃ t, step s = .next t ∧ CrcStreamed (crcUpdate s.crcAcc b) rest t :=
  ⟨_, (step_cmdEvent hr he).trans (exec_crcFeed_of_inputIs hin), hr, rfl, rfl, rfl, rfl⟩

/-- LOADIN leaves the accumulator, and CRC_FEED folds what it loaded. -/
theorem CrcStreamed.feedPiece {b : List Byte} (hb : b.length ≤ 256)
    (h : CrcStreamed c (loadIn b ++ [cmdEvent .crcFeed] ++ rest) s) :
    ∃ t, steps (b.length + 2) s = .next t ∧ CrcStreamed (crcUpdate c b) rest t := by
  obtain ⟨hr, rfl, -, -, he⟩ := h
  rw [List.append_assoc] at he
  obtain ⟨u, hload, hin, -, hu⟩ := loadInFillsTheInputBuffer s b _ hr hb he
  have hacc : u.crcAcc = s.crcAcc := by rw [hu]
  have hreleased : u.resetAsserted = false := by rw [hu, hr]
  have hnext : u.events = cmdEvent .crcFeed :: rest := by rw [hu]; rfl
  obtain ⟨t, hfeed, ht⟩ := step_cmd_crcFeed hreleased hin hnext
  exact ⟨t, (steps_add 1 hload).trans (steps_succ 0 hfeed), hacc ▸ ht⟩

theorem CrcStreamed.feedPieces (pieces : List (List Byte)) (hb : ∀ b ∈ pieces, b.length ≤ 256)
    (h : CrcStreamed c (pieces.flatMap (fun b => loadIn b ++ [cmdEvent .crcFeed]) ++ rest) s) :
    ∃ t, steps (pieces.map fun b => b.length + 2).sum s = .next t ∧ CrcStreamed (crcUpdate c pieces.flatten) rest t := by
  induction pieces generalizing c s with
  | nil => exact ⟨s, rfl, h⟩
  | cons b pieces ih =>
    obtain ⟨hhead, htail⟩ := List.forall_mem_cons.mp hb
    rw [List.flatMap_cons, List.append_assoc] at h
    obtain ⟨u, hfirst, hu⟩ := h.feedPiece hhead
    obtain ⟨t, hothers, ht⟩ := ih htail hu
    refine ⟨t, ?_, ?_⟩
    · rw [List.map_cons, List.sum_cons, steps_add _ hfirst, hothers]
    · rwa [List.flatten_cons, crcUpdate_append]

end Sys2Proof.Machine
end

section
/-! The statements about the checksum engine (40_checksum.md). -/

namespace Sys2Proof.Machine

/-- Settles O22: the machine's checksum and the rule's agree byte by byte. -/
theorem checksumFollowsItsRule : Obligations.ChecksumFollowsItsRule := ⟨crcUpdate_toNat, crc16_toNat⟩

/-- Settles O23: folding goes on where it left off, and a checksum folded over its own bytes is 0. -/
theorem checksumStreamsAndLeavesNoResidue : Obligations.ChecksumStreamsAndLeavesNoResidue :=
  ⟨fun c a b => (crcUpdate_append c a b).symm, fun _ => rfl, rfl,
    fun b => (crcUpdate_append crcInitial b _).trans (crcUpdate_be16_self (crc16 b))⟩

/-- Settles O24: CRC_INIT checks nothing and reads no operand, so one equation says all of it. -/
theorem crcInitSetsTheAccumulator : Obligations.CrcInitSetsTheAccumulator := ⟨rfl, exec_crcInit⟩

/-- Settles O25: the accumulator is folded over the input, and the fold is the rule's. -/
theorem crcFeedFoldsTheInput : Obligations.CrcFeedFoldsTheInput := by
  refine ⟨rfl, fun s => ⟨fun h => require_inLenOk_of_gt h _, fun b h => ?_⟩⟩
  rw [exec_crcFeed_of_inputIs h, ← crcUpdate_toNat, BitVec.ofNat_toNat, BitVec.ofNat_toNat, BitVec.setWidth_eq]

/-- Settles O26: CRC_CALC and RESULT take the checksum of the input, which is the rule's. -/
theorem crcComputeChecksTheInput : Obligations.CrcComputeChecksTheInput := by
  refine ⟨rfl, fun s => ⟨fun h => require_inLenOk_of_gt h _, fun b h => ?_⟩⟩
  rw [exec_crcCompute_of_inputIs h, ← crc16_toNat, BitVec.ofNat_toNat, BitVec.ofNat_toNat, BitVec.setWidth_eq]

/-- Settles O27: the output is the input and the two bytes of its checksum, and up to 254 bytes of input it fits OUT_BUF. -/
theorem crcAppendWritesInputAndChecksum : Obligations.CrcAppendWritesInputAndChecksum := by
  refine ⟨rfl, fun s => ⟨exec_crcAppend_of_gt, fun b h hb => ⟨_, exec_crcAppend_of_inputIs h hb, ?_, ?_⟩⟩⟩
  · rw [← crc16_toNat, ← be16_eq_beBytes]
    exact outputs_of rfl rfl (by rw [List.length_append, length_be16]; omega)
  · rw [← crc16_toNat, BitVec.ofNat_toNat, BitVec.ofNat_toNat, BitVec.setWidth_eq]
    rfl

/-- Settles O28: the trailer is compared with the checksum of the body, both the rule's numbers. -/
theorem crcVerifyComparesTheTrailer : Obligations.CrcVerifyComparesTheTrailer := by
  refine ⟨rfl, fun s => ⟨fun h => require_inLenOk_of_gt h _, exec_crcVerify_of_lt, fun b h hb => ⟨fun hne => ?_,
    fun heq => ?_⟩⟩⟩
  · exact exec_crcVerify_mismatch h hb (mt (trailerOf_eq_bodyCrc_iff hb).mp hne)
  · rw [exec_crcVerify_match h hb ((trailerOf_eq_bodyCrc_iff hb).mpr heq), ← trailerOf_toNat b hb, ← crc16_toNat,
      ← bodyCrc]
    simp only [BitVec.ofNat_toNat, BitVec.setWidth_eq]

/-- Settles O29: the comparison succeeds exactly where no residue is left. -/
theorem verifySucceedsExactlyOnZeroResidue : Obligations.VerifySucceedsExactlyOnZeroResidue := by
  intro s b h hb
  have hresidue : Rule.crc16 b = 0 ↔ trailerOf b.length b = bodyCrc b.length b := by
    rw [← crc16_eq_zero_iff hb, ← crc16_toNat, ← BitVec.toNat_inj]
    rfl
  by_cases heq : trailerOf b.length b = bodyCrc b.length b
  · exact ⟨_, exec_crcVerify_match h hb heq, iff_of_true rfl (hresidue.mpr heq)⟩
  · exact ⟨_, exec_crcVerify_mismatch h hb heq, iff_of_false (ErrCode.code_ne_zero .checksumMismatch) (mt hresidue.mp heq)⟩

/-- Settles O30: by induction on the pieces, the accumulator holds the checksum of what has been fed so far. -/
theorem streamedPiecesGiveTheWholeChecksum : Obligations.StreamedPiecesGiveTheWholeChecksum := by
  intro s pieces rest hr hb he
  obtain ⟨u, hinit, hu⟩ := step_cmd_crcInit hr he
  obtain ⟨t, hfeeds, ht⟩ := hu.feedPieces pieces hb
  have hcrc : (crcUpdate crcInitial pieces.flatten).toNat = Rule.crc16 pieces.flatten := crc16_toNat pieces.flatten
  refine ⟨t, ?_, ?_, ?_, ht.err, ht.events⟩
  · rw [Nat.add_comm, steps_succ _ hinit, hfeeds]
  · rw [ht.crcAcc, hcrc]
  · rw [ht.result, BitVec.toNat_setWidth_of_le (by decide), hcrc]

end Sys2Proof.Machine
end

section
/-! The mission time (41_timecode.md R121, R122, R123): the time a command takes, and the four bytes of a secondary header as
that time and back. -/

namespace Sys2Proof.Machine

variable {s : State} {b : List Byte}

/-- With TIME_SRC = 1 the time is TIME_IN, its low byte the fraction (10_state.md R32). -/
theorem sampleTime_toNat_of_timeIn (h : s.ctrl.getLsbD 1 = true) :
    (sampleTime s).1.toNat = s.timeIn.toNat / 256 ∧ (sampleTime s).2.toNat = s.timeIn.toNat % 256 := by
  rw [sampleTime, if_pos (show s.timeSrc = true from h)]
  have := s.timeIn.isLt
  simp only [BitVec.extractLsb'_toNat, Nat.shiftRight_eq_div_pow]
  omega

/-- With TIME_SRC = 0 the time is a free answer of the time source, its seconds taken modulo 2^24. -/
theorem sampleTime_toNat_of_source (h : s.ctrl.getLsbD 1 = false) :
    (sampleTime s).1.toNat = (Config.timeSource s.samples).1 % 2 ^ 24 ∧
    (sampleTime s).2.toNat = (Config.timeSource s.samples).2.toNat := by
  rw [sampleTime, if_neg (show ¬ s.timeSrc = true from Bool.eq_false_iff.mp h)]
  exact ⟨BitVec.toNat_ofNat .., rfl⟩

/-- Taking a sample advances the count of samples exactly where the time source is asked; nothing else changes. -/
theorem State.sampleTaken_eq_withSamples (s : State) :
    s.sampleTaken = { s with samples := if s.ctrl.getLsbD 1 then s.samples else s.samples + 1 } := by
  show (if s.ctrl.getLsbD 1 then s else _) = _
  split <;> rfl

theorem timeWord_eq_ofNat (t : BitVec 24 × Byte) : timeWord t = BitVec.ofNat 32 (t.1.toNat * 256 + t.2.toNat) := by
  rw [← timeWord_toNat, BitVec.ofNat_toNat, BitVec.setWidth_eq]

/-- Decoding a secondary header gives back the time it was made of. -/
theorem timeOfBytes_secondaryHeader (t : BitVec 24 × Byte) : timeOfBytes (secondaryHeader t) = t := by
  have hcoarse : (be24 t.1 ++ [t.2]).take 3 = be24 t.1 := List.take_left' (length_be24 t.1)
  have hfine : (be24 t.1 ++ [t.2]).getD 3 0 = t.2 := rfl
  have hlt : t.1.toNat < 256 ^ 3 := t.1.isLt
  rw [secondaryHeader, timeOfBytes, hcoarse, hfine, unbe_eq_beNat, be24_eq_beBytes, Rule.beNat_beBytes,
    Nat.mod_eq_of_lt hlt, BitVec.ofNat_toNat, BitVec.setWidth_eq]

/-- The word of a decoded time is the number its four bytes make. -/
theorem timeWord_timeOfBytes (h : b.length = 4) : timeWord (timeOfBytes b) = BitVec.ofNat 32 (Rule.beNat b) := by
  have hcoarse : Rule.beNat (b.take 3) < 2 ^ 24 := by simpa [h] using Rule.beNat_lt (b.take 3)
  have hfine : Rule.beNat (b.drop 3) < 2 ^ 8 := by simpa [h] using Rule.beNat_lt (b.drop 3)
  have hsplit : Rule.beNat b = Rule.beNat (b.take 3) * 256 + Rule.beNat (b.drop 3) := by
    conv => lhs; rw [← List.take_append_drop 3 b, Rule.beNat_append]
    simp [h]
  rw [timeOfBytes_eq b h, timeWord_eq_ofNat, hsplit, BitVec.toNat_ofNat, BitVec.toNat_ofNat, Nat.mod_eq_of_lt hcoarse,
    Nat.mod_eq_of_lt hfine]

end Sys2Proof.Machine
end

section
/-! TIME_ENCODE and TIME_DECODE, one equation for each outcome (41_timecode.md R122, R123), and the one output a state has. -/

namespace Sys2Proof.Machine

variable {s : State} {b b' : List Byte}

/-- A state has one output. -/
theorem OutputIs.unique (h : OutputIs s b) (h' : OutputIs s b') : b = b' := by
  obtain ⟨hlen, hheld⟩ := h
  obtain ⟨hlen', hheld'⟩ := h'
  refine List.ext_getElem (hlen.symm.trans hlen') fun k hk hk' => ?_
  exact Option.some.inj ((hheld k hk).symm.trans (hheld' k hk'))

theorem exec_timeEncode (s : State) : exec .timeEncode s = succeed (timeWord (sampleTime s))
    ((s.sampleTaken.putTime (sampleTime s)).putOutput (secondaryHeader (sampleTime s))) := rfl

theorem exec_timeDecode_of_inputIs (h : InputIs s b) (hb : b.length = 4) :
    exec .timeDecode s = succeed (timeWord (timeOfBytes b)) (s.putTime (timeOfBytes b)) := by
  have hcount : s.inCount = 4 := h.1.trans hb
  rw [exec, execTimeDecode, require_inLenOk_of_inputIs h, require_of_true (beq_iff_eq.mpr hcount),
    withInput_of_holds _ hb h.2.2]

theorem exec_timeDecode_of_ne (h : s.inLen.toNat ≤ 256) (hne : s.inLen.toNat ≠ 4) :
    exec .timeDecode s = stopsWith 5 s := by
  rw [exec, execTimeDecode, require_inLenOk h]
  exact require_of_false (beq_eq_false_iff_ne.mpr hne) _ _ _

end Sys2Proof.Machine
end

section
/-! A payload and a packet as the rules write them, and PKT_ASSEMBLE by them (44_payload_mux.md R185, 45_framer.md R210). -/

namespace Sys2Proof.Machine

variable {s : State} {y : Subsystem} {p : List Byte}

/-- The tables of 44_payload_mux.md R181 list the schema's types. -/
theorem schema_eq_layout (y : Subsystem) : schema y = (Rule.layout (subsystemIndex y)).map Prod.fst := by cases y <;> rfl

/-- The payload is the rule's exactly when all its fields fit (44_payload_mux.md R185). -/
theorem encPayload_eq (y : Subsystem) (field : Vector Word Config.nField) : encPayload y field =
    if Rule.AllFit (subsystemIndex y) field then some (Rule.payload (subsystemIndex y) field) else none := by
  have hlen : (Rule.layout (subsystemIndex y)).length ≤ field.toList.length := by
    rw [Vector.length_toList]
    cases y <;> decide
  rw [encPayload, schema_eq_layout, encFields_cases _ _ hlen]
  rfl

theorem withPayload_of_fit (h : Rule.AllFit (subsystemIndex y) s.field) (k : List Byte → Out) :
    withPayload y s k = k (Rule.payload (subsystemIndex y) s.field) := by
  rw [withPayload, encPayload_eq, if_pos h]

theorem withPayload_of_not_fit (h : ¬ Rule.AllFit (subsystemIndex y) s.field) (k : List Byte → Out) :
    withPayload y s k = stopsWith 8 s := by
  rw [withPayload, encPayload_eq, if_neg h]
  rfl

theorem length_payload {field : Vector Word Config.nField} (h : Rule.AllFit (subsystemIndex y) field) :
    (Rule.payload (subsystemIndex y) field).length = plen y :=
  length_encPayload (by rw [encPayload_eq, if_pos h])

/-- The machine's packet before its checksum is the rule's. -/
theorem packetBody_eq (hp : p.length = plen y) (q : BitVec 14) (t : BitVec 24 × Byte) :
    packetBody y q t p = Rule.packetBody (subsystemIndex y) q.toNat t.1.toNat t.2.toNat p := by
  have hpl := plen_le y
  have hdlen : (BitVec.ofNat 16 (4 + p.length - 1)).toNat = plen y + 3 := by
    rw [BitVec.toNat_ofNat, hp]
    omega
  rw [packetBody, packPh_eq_header, apidMap_toNat, length_secondaryHeader, hdlen, secondaryHeader_eq_beBytes,
    plen_eq_rulePlen, ← List.append_assoc]
  rfl

/-- The machine's packet is the rule's (45_framer.md R210). -/
theorem packetOf_eq (hp : p.length = plen y) (q : BitVec 14) (t : BitVec 24 × Byte) :
    packetOf y q t p = Rule.packet (subsystemIndex y) q.toNat t.1.toNat t.2.toNat p := by
  rw [packetOf, packetBody_eq hp, be16_eq_beBytes, crc16_toNat, Rule.packet_eq]

/-! PKT_ASSEMBLE past its check of the subsystem index. -/

/-- The packet PKT_ASSEMBLE makes for subsystem y: the rule's, with the time taken and the payload of FIELD. -/
def assembledPacket (s : State) (y : Subsystem) : List Byte :=
  Rule.packet (subsystemIndex y) s.argSeq.toNat (sampleTime s).1.toNat (sampleTime s).2.toNat
    (Rule.payload (subsystemIndex y) s.field)

theorem length_assembledPacket (hfit : Rule.AllFit (subsystemIndex y) s.field) :
    (assembledPacket s y).length = 12 + plen y := by
  rw [assembledPacket, Rule.length_packet, length_payload hfit]

theorem exec_pktAssemble_of_rangeError (hy : s.argSubsys.toNat = subsystemIndex y)
    (h : 0x3FFF < s.argSeq.toNat ∨ ¬ Rule.AllFit (subsystemIndex y) s.field) : exec .pktAssemble s = stopsWith 8 s := by
  rw [exec, execPktAssemble, withSubsystem_of_index hy]
  by_cases hq : s.argSeq.toNat ≤ 0x3FFF
  · rw [require_true hq, withPayload_of_not_fit (h.resolve_left (Nat.not_lt.mpr hq))]
  · exact require_false hq _ _ _

theorem exec_pktAssemble_of_fit (hy : s.argSubsys.toNat = subsystemIndex y) (hq : s.argSeq.toNat ≤ 0x3FFF)
    (hfit : Rule.AllFit (subsystemIndex y) s.field) :
    exec .pktAssemble s = succeed (BitVec.ofNat 32 (12 + plen y))
      ({ s.sampleTaken.putTime (sampleTime s) with
          crcCalc := bodyCrc (assembledPacket s y).length (assembledPacket s y) }.putOutput (assembledPacket s y)) := by
  have hseq : (s.argSeq.setWidth 14).toNat = s.argSeq.toNat := by
    rw [BitVec.toNat_setWidth, Nat.mod_eq_of_lt (by omega)]
  have hlen := length_payload hfit
  rw [exec, execPktAssemble, withSubsystem_of_index hy, require_true hq, withPayload_of_fit hfit, assembledPacket,
    bodyCrc_packet]
  simp only [packetOf_eq hlen, packetBody_eq hlen, hseq]

end Sys2Proof.Machine
end

section
/-! The statements about the mission time (41_timecode.md, 45_framer.md R210). -/

namespace Sys2Proof.Machine

/-- Settles O31: the output is the secondary header of the time taken. -/
theorem timeEncodeWritesTheTimeCode : Obligations.TimeEncodeWritesTheTimeCode := by
  refine ⟨rfl, fun s => ⟨_, (sampleTime s).1.toNat, (sampleTime s).2.toNat, exec_timeEncode s, sampleTime_toNat_of_timeIn,
    sampleTime_toNat_of_source, ?_, ?_⟩⟩
  · rw [← secondaryHeader_eq_beBytes]
    exact outputs_of (by simp) (by simp) (by simp)
  · simp only [State.sampleTaken_eq_withSamples, ← timeWord_eq_ofNat, BitVec.ofNat_toNat, BitVec.setWidth_eq]
    rfl

/-- Settles O32: the length is checked before any byte is read, and the four bytes are the time and its word. -/
theorem timeDecodeReadsTheTimeCode : Obligations.TimeDecodeReadsTheTimeCode := by
  refine ⟨rfl, fun s => ⟨fun h => require_inLenOk_of_gt h _, exec_timeDecode_of_ne, fun b h hb => ?_⟩⟩
  rw [exec_timeDecode_of_inputIs h hb, timeWord_timeOfBytes hb, timeOfBytes_eq b hb]
  rfl

/-- Settles O33: the output of TIME_ENCODE can only be the secondary header of the time it took. -/
theorem timeDecodeInvertsTimeEncode : Obligations.TimeDecodeInvertsTimeEncode := by
  intro s t u b ht hout hin
  rw [exec_timeEncode, succeed_eq_next] at ht
  have hheader : OutputIs t (secondaryHeader (sampleTime s)) :=
    (outputs_of (s := s) (by simp [ht]) (by simp [ht]) (by simp)).1
  obtain rfl := hout.unique hheader
  refine ⟨_, exec_timeDecode_of_inputIs hin (length_secondaryHeader _), rfl, ?_, ?_, BitVec.isLt _, BitVec.isLt _⟩ <;>
    simp [ht, timeOfBytes_secondaryHeader]

/-- Settles O45: each check in its order, and past them the rule's packet with the time taken. -/
theorem pktAssembleWritesThePacket : Obligations.PktAssembleWritesThePacket := by
  refine ⟨rfl, fun s => ⟨fun h => withSubsystem_of_gt h _ _, fun hi h => ?_, fun hi hq hfit => ?_⟩⟩ <;>
    obtain ⟨y, hy⟩ := exists_subsystem hi
  · exact exec_pktAssemble_of_rangeError hy (hy ▸ h)
  · rw [hy] at hfit
    rw [hy, ← plen_eq_rulePlen]
    have hpl := plen_le y
    have hlen := length_assembledPacket hfit
    refine ⟨_, (sampleTime s).1.toNat, (sampleTime s).2.toNat, assembledPacket s y, exec_pktAssemble_of_fit hy hq hfit,
      sampleTime_toNat_of_timeIn, sampleTime_toNat_of_source, rfl, hlen, outputs_of (by simp) (by simp) (by omega), ?_⟩
    simp only [State.sampleTaken_eq_withSamples, bodyCrc, crc16_eq_ofNat, BitVec.ofNat_toNat, BitVec.setWidth_eq]
    rfl

/-- Settles O56: an error leaves the count alone, and a success asks the time source exactly where TIME_SRC = 0. -/
theorem timeSamplesAreTakenOnlyOnSuccess : Obligations.TimeSamplesAreTakenOnlyOnSuccess := by
  intro i s t h
  obtain ⟨e, -, rfl⟩ | ⟨v, u, heffect, rfl⟩ := exec_cases h
  · exact (if_neg fun hcond => e.code_ne_zero hcond.2.1).symm
  · rw [State.setStatus_samples, effect_samples heffect, State.sampleTaken_eq_withSamples]
    cases takesTime i with
    | false => simp
    | true => cases s.ctrl.getLsbD 1 <;> simp

end Sys2Proof.Machine
end

section
/-! The directory's bijection and what its two lookups answer (42_directory.md R140 to R143). -/

namespace Sys2Proof.Machine

variable {s : State} {y : Subsystem} {w : Word}

@[simp] theorem subsystemOfIndex_subsystemIndex (y : Subsystem) : subsystemOfIndex (subsystemIndex y) = some y :=
  subsystemOfIndex_eq_some.mpr rfl

@[simp] theorem subsysOf_apidMap (y : Subsystem) : subsysOf (apidMap y).toNat = some y :=
  subsysOf_eq_some.mpr (apidMap_toNat y)

theorem apidMap_ne_zero (y : Subsystem) : apidMap y ≠ 0 := by
  intro h
  have htoNat := apidMap_toNat y
  simp [h] at htoNat

/-- Every APID 1..7 is one more than some subsystem's index. -/
theorem exists_subsystem_of_apid {a : Nat} (h1 : 1 ≤ a) (h7 : a ≤ 7) : ∃ y, a = subsystemIndex y + 1 := by
  obtain ⟨y, hy⟩ := exists_subsystem (n := a - 1) (by omega)
  exact ⟨y, by omega⟩

/-- APID_MAP(s) = s + 1 on the words of the operand and of RESULT (42_directory.md R140). -/
theorem apidMap_setWidth (h : w.toNat = subsystemIndex y) : (apidMap y).setWidth 32 = w + 1 := by
  apply BitVec.eq_of_toNat_eq
  rw [BitVec.toNat_setWidth, apidMap_toNat, BitVec.toNat_add, h]
  rfl

/-- SUBSYS_OF(a) = a - 1 on the words of the operand and of RESULT (42_directory.md R140). -/
theorem ofNat_subsystemIndex (h : w.toNat = subsystemIndex y + 1) : BitVec.ofNat 32 (subsystemIndex y) = w - 1 := by
  bv_omega

theorem exec_dirApidFor_of_gt (h : 6 < s.argSubsys.toNat) : exec .dirApidFor s = stopsWith 1 s :=
  withSubsystem_of_gt h _ _

theorem exec_dirApidFor_of_le (h : s.argSubsys.toNat ≤ 6) : exec .dirApidFor s = succeed (s.argSubsys + 1) s := by
  obtain ⟨y, hy⟩ := exists_subsystem h
  rw [exec, execDirApidFor, withSubsystem_of_index hy, apidMap_setWidth hy]

theorem exec_dirSubsysFor_of_none (h : s.argApid.toNat < 1 ∨ 7 < s.argApid.toNat) :
    exec .dirSubsysFor s = stopsWith 2 s :=
  withApid_of_none h _ _

theorem exec_dirSubsysFor_of_apid (h1 : 1 ≤ s.argApid.toNat) (h7 : s.argApid.toNat ≤ 7) :
    exec .dirSubsysFor s = succeed (s.argApid - 1) s := by
  obtain ⟨y, hy⟩ := exists_subsystem_of_apid h1 h7
  rw [exec, execDirSubsysFor, withApid_of_apid hy, ofNat_subsystemIndex hy]

/-- DIR_APID_FOR ends with error code 0 only on an index of the directory, and RESULT is then one more than it. -/
theorem result_of_exec_dirApidFor {t : State} (h : exec .dirApidFor s = .next t) (herr : t.err = 0) :
    s.argSubsys.toNat ≤ 6 ∧ t.result = s.argSubsys + 1 := by
  by_cases hi : s.argSubsys.toNat ≤ 6
  · rw [exec_dirApidFor_of_le hi, succeed_eq_next] at h
    exact ⟨hi, by rw [h, State.setStatus_result]⟩
  · rw [exec_dirApidFor_of_gt (Nat.lt_of_not_le hi)] at h
    cases h
    cases herr

end Sys2Proof.Machine
end

section
/-! The statements about the directory (42_directory.md). -/

namespace Sys2Proof.Machine

/-- Settles O34: an index 0..6 is some subsystem's, whose APID is one more. -/
theorem dirApidForLooksUpTheIndex : Obligations.DirApidForLooksUpTheIndex :=
  ⟨rfl, fun _ => ⟨exec_dirApidFor_of_gt, exec_dirApidFor_of_le⟩⟩

/-- Settles O35: an APID 1..7 is some subsystem's, whose index is one less. -/
theorem dirSubsysForLooksUpTheApid : Obligations.DirSubsysForLooksUpTheApid :=
  ⟨rfl, fun _ => ⟨exec_dirSubsysFor_of_none, exec_dirSubsysFor_of_apid⟩⟩

/-- Settles O36: DIR_COUNT reads no operand and commits a constant. -/
theorem dirCountIsSeven : Obligations.DirCountIsSeven := ⟨rfl, fun _ => rfl⟩

/-- Settles O37: an index and its APID differ by one, so the second lookup takes back what the first added. -/
theorem directoryLookupsInvertEachOther : Obligations.DirectoryLookupsInvertEachOther := by
  refine ⟨fun y => ⟨subsysOf_apidMap y, apidMap_ne_zero y, apidMap_toNat y, subsystemIndex_le_six y,
    subsystemOfIndex_subsystemIndex y⟩, fun n hn => ?_, fun n => subsystemOfIndex_eq_none.mpr, fun a h1 h7 => ?_,
    fun a => subsysOf_eq_none.mpr, fun s t u hs herr hu => ?_⟩
  · obtain ⟨y, rfl⟩ := exists_subsystem hn
    exact ⟨y, subsystemOfIndex_subsystemIndex y, rfl⟩
  · obtain ⟨y, rfl⟩ := exists_subsystem_of_apid h1 h7
    exact ⟨y, subsysOf_eq_some.mpr rfl, apidMap_toNat y⟩
  · obtain ⟨hi, hresult⟩ := result_of_exec_dirApidFor hs herr
    have hapid : u.argApid.toNat = s.argSubsys.toNat + 1 := by rw [hu, hresult]; bv_omega
    refine ⟨_, exec_dirSubsysFor_of_apid (by omega) (by omega), rfl, ?_⟩
    show u.argApid - 1 = s.argSubsys
    rw [hu, hresult, BitVec.add_sub_cancel]

end Sys2Proof.Machine
end

section
/-! PH_ENCODE and PH_DECODE, one equation for each outcome (43_primary_header.md R160, R161, R162). -/

namespace Sys2Proof.Machine

variable {s : State} {h : List Byte}

/-- All three checks of PH_ENCODE raise the same error, so one operand too wide for its field is enough. -/
theorem exec_phEncode_of_gt (hwide : 0x7FF < s.argApid.toNat ∨ 0x3FFF < s.argSeq.toNat ∨ 0xFFFF < s.argDlen.toNat) :
    exec .phEncode s = stopsWith 8 s := by
  rw [exec, execPhEncode]
  by_cases ha : s.argApid.toNat ≤ 0x7FF
  · rw [require_true ha]
    by_cases hq : s.argSeq.toNat ≤ 0x3FFF
    · rw [require_true hq]
      exact require_false (by omega) _ _ _
    · exact require_false hq _ _ _
  · exact require_false ha _ _ _

/-- Operands that fit their fields keep their values in the packing, so the output is the rule's header. -/
theorem exec_phEncode_of_le (ha : s.argApid.toNat ≤ 0x7FF) (hq : s.argSeq.toNat ≤ 0x3FFF)
    (hd : s.argDlen.toNat ≤ 0xFFFF) :
    exec .phEncode s = succeed 6 (s.putOutput (Rule.header s.argApid.toNat s.argSeq.toNat s.argDlen.toNat)) := by
  rw [exec, execPhEncode, require_true ha, require_true hq, require_true hd, packPh_eq_header]
  simp only [BitVec.toNat_setWidth]
  rw [Nat.mod_eq_of_lt (by omega), Nat.mod_eq_of_lt (by omega), Nat.mod_eq_of_lt (by omega)]

theorem exec_phDecode_of_lt (hlen : s.inLen.toNat < 6) : exec .phDecode s = stopsWith 4 s := by
  rw [exec, execPhDecode, require_inLenOk (by omega)]
  exact require_false (Nat.not_le.mpr hlen) _ _ _

/-- Once six bytes are held, PH_DECODE turns on the declared total alone, and reads no byte after them. -/
theorem exec_phDecode_of_holds (hh : h.length = 6) (hmin : 6 ≤ s.inLen.toNat) (hmax : s.inLen.toNat ≤ 256)
    (hheld : Holds s inBase h) : exec .phDecode s =
      require (declaredTotal (headerWord 2 h) ≤ s.inLen.toNat) .incompletePacket s
        (succeed (BitVec.ofNat 32 (declaredTotal (headerWord 2 h)))
          (s.putHeader (headerWord 0 h) (headerWord 1 h) (headerWord 2 h))) := by
  have hsix : 6 ≤ s.inCount := hmin
  rw [exec, execPhDecode, require_inLenOk hmax, require_true hsix, withInput_of_holds _ hh hheld]
  rfl

/-- PH_DECODE on a header whose declared total is there: the registers take its operands and the fixed bits. -/
theorem exec_phDecode_of_header {a q d : Nat} (ha : a ≤ 0x7FF) (hq : q ≤ 0x3FFF) (hd : d ≤ 0xFFFF)
    (hmin : d + 9 ≤ s.inLen.toNat) (hmax : s.inLen.toNat ≤ 256) (hheld : Holds s inBase (Rule.header a q d)) :
    exec .phDecode s = succeed (BitVec.ofNat 32 (d + 9))
      { s with phVersion := 0, phType := 0, phShf := 1, phApid := BitVec.ofNat 11 a, phSeqf := 3
               phSeq := BitVec.ofNat 14 q, phDlen := BitVec.ofNat 16 d, phLength := BitVec.ofNat 17 (d + 1) } := by
  obtain ⟨h1, h2, h3⟩ := headerWord_header ha hq hd
  have htotal : declaredTotal (headerWord 2 (Rule.header a q d)) = d + 9 := by rw [declaredTotal, h3]
  rw [exec_phDecode_of_holds (Rule.length_header ..) (by omega) hmax hheld, htotal, require_true hmin,
    putHeader_of_words ha hq h1 h2 h3]

end Sys2Proof.Machine
end

section
/-! The statements about the primary header codec (43_primary_header.md). -/

namespace Sys2Proof.Machine

/-- Settles O38: operands that fit are packed into the six bytes of the rule's header, and any other is refused. -/
theorem phEncodePacksTheHeader : Obligations.PhEncodePacksTheHeader :=
  ⟨rfl, fun _ => ⟨exec_phEncode_of_gt, fun ha hq hd =>
    ⟨_, exec_phEncode_of_le ha hq hd, outputs_of rfl rfl (by simp), rfl⟩⟩⟩

/-- Settles O39: past the range check and the six bytes, the declared total decides, and the fields are the rule's
quotients and remainders. -/
theorem phDecodeUnpacksTheHeader : Obligations.PhDecodeUnpacksTheHeader := by
  refine ⟨rfl, fun s => ⟨fun hgt => require_inLenOk_of_gt hgt _, exec_phDecode_of_lt, fun h hh hmin hmax hheld => ?_⟩⟩
  have htotal : declaredTotal (headerWord 2 h) = Rule.wordAt h 4 + 9 := by rw [declaredTotal, headerWord_toNat]
  rw [exec_phDecode_of_holds hh hmin hmax hheld, htotal]
  refine ⟨fun hshort => require_false (Nat.not_le.mpr hshort) _ _ _, fun hfits => ?_⟩
  rw [require_true hfits, putHeader_eq]
  simp only [headerWord_toNat]
  rfl

/-- Settles O40: the output of PH_ENCODE can only be the header of its operands, and the bytes
after it make up its declared total. -/
theorem phDecodeInvertsPhEncode : Obligations.PhDecodeInvertsPhEncode := by
  intro s t u h x ha hq hd ht hout hx hin
  rw [exec_phEncode_of_le ha hq hd, succeed_eq_next] at ht
  have hheader : OutputIs t (Rule.header s.argApid.toNat s.argSeq.toNat s.argDlen.toNat) :=
    (outputs_of (s := s) (by simp [ht]) (by simp [ht]) (by simp)).1
  obtain rfl := hout.unique hheader
  obtain ⟨hlen, hmax, hheld⟩ := hin
  rw [List.length_append, Rule.length_header] at hlen hmax
  refine ⟨_, exec_phDecode_of_header ha hq hd (by omega) (by omega) hheld.of_append, rfl, ?_, ?_, ?_, rfl, rfl, rfl, rfl⟩
  · exact Nat.mod_eq_of_lt (Nat.lt_succ_of_le ha)
  · exact Nat.mod_eq_of_lt (Nat.lt_succ_of_le hq)
  · exact Nat.mod_eq_of_lt (Nat.lt_succ_of_le hd)

end Sys2Proof.Machine
end

section
/-! PL_ENCODE and PL_DECODE, one equation for each outcome (44_payload_mux.md R187, R188), and the payload of FIELD and the FIELD
of a payload, which invert each other (44_payload_mux.md R189). -/

namespace Sys2Proof.Machine

variable {s t : State} {y : Subsystem} {p : List Byte} {field : Vector Word Config.nField}

theorem nf_le (y : Subsystem) : nf y ≤ 14 := by cases y <;> decide

/-! The payload. -/

@[simp] theorem length_decFields (ts : List FieldType) (b : List Byte) : (decFields ts b).length = ts.length := by
  induction ts generalizing b with
  | nil => rfl
  | cons t ts ih => simp [decFields, ih]

theorem getElem_decPayload (y : Subsystem) (p : List Byte) {i : Nat} (hi : i < 14) :
    (decPayload y p)[i] = (decFields (schema y) p).getD i 0 := Vector.getElem_ofFn hi

/-- Decoding an encoded payload gives the schema's fields back, and 0 beyond them. -/
theorem getElem_decPayload_of_encPayload (h : encPayload y field = some p) {i : Nat} (hi : i < 14) :
    (decPayload y p)[i] = if i < nf y then field[i] else 0 := by
  rw [getElem_decPayload, decFields_encFields _ _ _ h, List.getD_eq_getElem?_getD, List.getElem?_take, ← nf]
  split
  · simp [hi]
  · rfl

/-- The schema's part of a decoded FIELD is what its field types read from the payload. -/
theorem take_decPayload (y : Subsystem) (p : List Byte) :
    (decPayload y p).toList.take (schema y).length = decFields (schema y) p := by
  have hnf : (schema y).length ≤ 14 := nf_le y
  refine List.ext_getElem (by simpa using hnf) fun i hi hi' => ?_
  have hlt : i < 14 := by rw [length_decFields] at hi'; omega
  rw [List.getElem_take, Vector.getElem_toList, getElem_decPayload y p hlt, List.getD_eq_getElem _ _ hi']

/-- Encoding a decoded payload gives its bytes back. -/
theorem encPayload_decPayload (h : p.length = plen y) : encPayload y (decPayload y p) = some p := by
  rw [encPayload, ← encFields_take, take_decPayload]
  exact encFields_decFields _ _ _ h ⟨[], (List.append_nil _).symm⟩

/-! The commands. -/

theorem exec_plEncode_of_not_fit (hy : s.argSubsys.toNat = subsystemIndex y)
    (hfit : ¬ Rule.AllFit (subsystemIndex y) s.field) : exec .plEncode s = stopsWith 8 s := by
  rw [exec, execPlEncode, withSubsystem_of_index hy, withPayload_of_not_fit hfit]

theorem exec_plEncode_of_encPayload (hy : s.argSubsys.toNat = subsystemIndex y) (hp : encPayload y s.field = some p) :
    exec .plEncode s = succeed (BitVec.ofNat 32 (plen y)) (s.putOutput p) := by
  rw [exec, execPlEncode, withSubsystem_of_index hy, withPayload, hp]

/-- A success of PL_ENCODE wrote the payload of FIELD. -/
theorem encPayload_of_exec_plEncode (h : exec .plEncode s = .next t) (herr : t.err = 0) :
    ∃ y p, s.argSubsys.toNat = subsystemIndex y ∧ encPayload y s.field = some p ∧ OutputIs t p := by
  obtain ⟨e, -, rfl⟩ | ⟨_, _, ⟨y, p, hy, hp, rfl, rfl⟩, rfl⟩ := exec_cases h
  · exact absurd herr e.code_ne_zero
  · have hlen : p.length ≤ 256 := by rw [length_encPayload hp]; exact (plen_le y).trans (by decide)
    exact ⟨y, p, hy, hp, (outputs_putOutput s (by omega)).1⟩

theorem exec_plDecode_of_ne (hlen : s.inLen.toNat ≤ 256) (hy : s.argSubsys.toNat = subsystemIndex y)
    (hne : s.inLen.toNat ≠ plen y) : exec .plDecode s = stopsWith 3 s := by
  rw [exec, execPlDecode, require_inLenOk hlen, withSubsystem_of_index hy]
  exact require_of_false (beq_eq_false_iff_ne.mpr hne) _ _ _

theorem exec_plDecode_of_inputIs (hin : InputIs s p) (hy : s.argSubsys.toNat = subsystemIndex y) (hp : p.length = plen y) :
    exec .plDecode s = succeed (BitVec.ofNat 32 (nf y)) { s with field := decPayload y p } := by
  have hcount : s.inCount = plen y := hin.1.trans hp
  rw [exec, execPlDecode, require_inLenOk_of_inputIs hin, withSubsystem_of_index hy,
    require_of_true (beq_iff_eq.mpr hcount), withInput_of_inputIs _ hin]

/-- A success of PL_DECODE had a payload of the schema's length, and filled FIELD from it. -/
theorem field_of_exec_plDecode (hin : InputIs s p) (h : exec .plDecode s = .next t) (herr : t.err = 0) :
    ∃ y, s.argSubsys.toNat = subsystemIndex y ∧ p.length = plen y ∧ t.field = decPayload y p := by
  obtain ⟨e, -, rfl⟩ | ⟨_, _, ⟨y, q, -, hy, hcount, -, -⟩, -⟩ := exec_cases h
  · exact absurd herr e.code_ne_zero
  · have hlen : s.inCount = p.length := hin.1
    have hp : p.length = plen y := hlen.symm.trans hcount
    rw [exec_plDecode_of_inputIs hin hy hp, succeed_eq_next] at h
    exact ⟨y, hy, hp, by rw [h]; rfl⟩

end Sys2Proof.Machine
end

section
/-! The statements about the payload multiplexer (44_payload_mux.md). -/

namespace Sys2Proof.Machine

/-- Settles O41: the machine's schema is the type column of the table, and every offset of the table is where the widths
before it end. -/
theorem schemaTableMatchesItsRows : Obligations.SchemaTableMatchesItsRows := by
  refine fun y => ⟨schema_eq_layout y, plen_eq_rulePlen y, nf_eq_ruleNf y, nf_le y, fun i h => ?_⟩
  have hlen : i < (schema y).length := by rwa [schema_eq_layout, List.length_map]
  have hrow := layout_getElem? y ⟨i, hlen.trans_le (nf_le y)⟩
  rw [List.getElem?_eq_getElem h, List.getElem?_eq_getElem hlen] at hrow
  exact congrArg Prod.snd (Option.some.inj hrow)

/-- Settles O42: the subsystem index is checked before the fields, and fields that all fit are written as the rule's payload. -/
theorem plEncodeWritesThePayload : Obligations.PlEncodeWritesThePayload := by
  refine ⟨rfl, fun s => ⟨fun hgt => withSubsystem_of_gt hgt _ _, fun hle hfit => ?_, fun hle hfit => ?_⟩⟩ <;>
    obtain ⟨y, hy⟩ := exists_subsystem hle
  · exact exec_plEncode_of_not_fit hy (hy ▸ hfit)
  · rw [hy] at hfit
    rw [hy, ← plen_eq_rulePlen]
    have hpl := plen_le y
    have hlen := length_payload hfit
    have hp : encPayload y s.field = some (Rule.payload (subsystemIndex y) s.field) := by rw [encPayload_eq, if_pos hfit]
    exact ⟨_, exec_plEncode_of_encPayload hy hp, outputs_of rfl rfl (by omega), hlen, rfl⟩

/-- Settles O43: length range, subsystem index and schema length are checked in that order, and a payload of that length
fills all of FIELD. -/
theorem plDecodeFillsTheFields : Obligations.PlDecodeFillsTheFields := by
  refine ⟨rfl, fun s => ⟨fun hgt => require_inLenOk_of_gt hgt _, fun hlen hgt => ?_, fun hlen hle hne => ?_,
    fun p hin hle hp => ?_⟩⟩
  · exact (require_inLenOk hlen _).trans (withSubsystem_of_gt hgt _ _)
  · obtain ⟨y, hy⟩ := exists_subsystem hle
    rw [hy, ← plen_eq_rulePlen] at hne
    exact exec_plDecode_of_ne hlen hy hne
  · obtain ⟨y, hy⟩ := exists_subsystem hle
    rw [hy, ← plen_eq_rulePlen] at hp
    rw [exec_plDecode_of_inputIs hin hy hp, hy, ← nf_eq_ruleNf, decPayload_eq]
    rfl

/-- Settles O44: a success of either command fixes the payload the other works on, and the field codecs invert each other. -/
theorem payloadCodecsInvertEachOther : Obligations.PayloadCodecsInvertEachOther := by
  refine ⟨fun s t u p ht herr hout hin hsub => ?_, fun s t u p hin ht herr hsub hfield => ?_⟩
  · obtain ⟨y, q, hy, hq, hout'⟩ := encPayload_of_exec_plEncode ht herr
    obtain rfl := hout.unique hout'
    refine ⟨_, exec_plDecode_of_inputIs hin (hsub ▸ hy) (length_encPayload hq), rfl, fun i hi => ?_⟩
    rw [hy, ← nf_eq_ruleNf]
    exact getElem_decPayload_of_encPayload hq hi
  · obtain ⟨y, hy, hp, hdec⟩ := field_of_exec_plDecode hin ht herr
    have henc : encPayload y u.field = some p := by rw [hfield, hdec, encPayload_decPayload hp]
    obtain ⟨-, hmax, -⟩ := hin
    exact ⟨_, exec_plEncode_of_encPayload (hsub ▸ hy) henc, rfl, (outputs_putOutput u hmax).1⟩

end Sys2Proof.Machine
end

section
/-! PKT_PARSE on any input of at least six bytes (45_framer.md R211): the errors of its header, and what it does past them. -/

namespace Sys2Proof.Machine

variable {s : State} {h b : List Byte} {y : Subsystem}

/-! The header's fields as numbers. -/

/-- Step 3 of PKT_PARSE as quotients and remainders of the first two words (30_encoding.md R87). -/
theorem fixedFieldsOk_iff (w1 w2 : Half) : fixedFieldsOk w1 w2 = true ↔
    w1.toNat / 8192 = 0 ∧ w1.toNat / 4096 % 2 = 0 ∧ w1.toNat / 2048 % 2 = 1 ∧ w2.toNat / 16384 = 3 := by
  have hw1 := w1.isLt
  have hw2 := w2.isLt
  simp only [fixedFieldsOk, Bool.and_eq_true, beq_iff_eq, ← BitVec.toNat_inj, versionOf, typeOf, shfOf, seqfOf,
    BitVec.extractLsb'_toNat, Nat.shiftRight_eq_div_pow, and_assoc, BitVec.ofNat_eq_ofNat, BitVec.toNat_ofNat]
  omega

theorem apidOf_toNat (w1 : Half) : (apidOf w1).toNat = w1.toNat % 2048 := by
  simp [apidOf, BitVec.extractLsb'_toNat]

/-- A word of the header is a word of the whole input. -/
theorem wordAt_take {i n : Nat} (hi : i + 2 ≤ n) (b : List Byte) : Rule.wordAt (b.take n) i = Rule.wordAt b i := by
  rw [Rule.wordAt, Rule.wordAt, List.drop_take, List.take_take, Nat.min_eq_left (by omega)]

/-- The words of an input's header are the first words of the input. -/
theorem headerWord_take (b : List Byte) : (headerWord 0 (b.take 6)).toNat = Rule.wordAt b 0 ∧
    (headerWord 1 (b.take 6)).toNat = Rule.wordAt b 2 ∧ (headerWord 2 (b.take 6)).toNat = Rule.wordAt b 4 := by
  refine ⟨?_, ?_, ?_⟩ <;> rw [headerWord_toNat, wordAt_take (by omega)]

theorem Holds.take {base : Nat} (hb : Holds s base b) (n : Nat) : Holds s base (b.take n) :=
  Holds.of_append (x := b.drop n) (by rwa [List.take_append_drop])

/-- The time in the first four bytes of a run, as numbers (41_timecode.md R123). -/
theorem timeOfBytes_eq_of_le (hb : 4 ≤ b.length) : timeOfBytes b =
    (BitVec.ofNat 24 (Rule.beNat (b.take 3)), BitVec.ofNat 8 (Rule.beNat ((b.drop 3).take 1))) := by
  match b, hb with
  | x :: y :: z :: w :: _, _ => simp [timeOfBytes, unbe_eq_beNat, Rule.beNat]

/-! The checks. -/

/-- Steps 3 to 7 of PKT_PARSE in their order, for n input bytes and a header of words w1, w2 and w3: stop with the error code
of the first that fails, or pass; hdrChk is CTRL.HDR_CHK (45_framer.md R211). -/
def headerChecks {α : Type} (hdrChk : Bool) (n w1 w2 w3 : Nat) (stop : BitVec 4 → α) (pass : α) : α :=
  let a := w1 % 2048
  if hdrChk = true ∧ ¬ (w1 / 8192 = 0 ∧ w1 / 4096 % 2 = 0 ∧ w1 / 2048 % 2 = 1 ∧ w2 / 16384 = 3) then stop 7
  else if a < 1 ∨ 7 < a then stop 2
  else if n < w3 + 9 then stop 4
  else if w3 + 1 ≠ 4 + Rule.plen (a - 1) then stop 3
  else if n ≠ w3 + 9 then stop 3
  else pass

section

variable {α : Type} {hdrChk : Bool} {n w1 w2 w3 : Nat} {stop : BitVec 4 → α}

theorem headerChecks_of_eq_some {code : BitVec 4} (h : headerChecks hdrChk n w1 w2 w3 some none = some code) (pass : α) :
    headerChecks hdrChk n w1 w2 w3 stop pass = stop code := by
  have helim : headerChecks hdrChk n w1 w2 w3 stop pass = (headerChecks hdrChk n w1 w2 w3 some none).elim pass stop := by
    simp only [headerChecks, apply_ite (Option.elim · pass stop), Option.elim_some, Option.elim_none]
  rw [helim, h, Option.elim_some]

/-- What comes after the checks may use what they have established. -/
theorem headerChecks_congr {x x' : α} (h : ∀ y, w1 % 2048 = subsystemIndex y + 1 → w3 = plen y + 3 → n = plen y + 12 →
    x = x') : headerChecks hdrChk n w1 w2 w3 stop x = headerChecks hdrChk n w1 w2 w3 stop x' := by
  refine ite_congr rfl (fun _ => rfl) fun _ => ite_congr rfl (fun _ => rfl) fun hapid => ite_congr rfl (fun _ => rfl)
    fun _ => ite_congr rfl (fun _ => rfl) fun hdlen => ite_congr rfl (fun _ => rfl) fun hlen => ?_
  obtain ⟨y, hy⟩ := exists_subsystem_of_apid (a := w1 % 2048) (by omega) (by omega)
  rw [hy, Nat.add_sub_cancel, ← plen_eq_rulePlen] at hdlen
  exact h y hy (by omega) (by omega)

end

/-- PKT_PARSE from its step 8 on, for subsystem y and a header of words w1, w2 and w3 (45_framer.md R211). -/
def parseBody (s : State) (w1 w2 w3 : Half) (y : Subsystem) : Out :=
  withInput 0 s.inCount s fun b =>
    require (!s.crcChk || trailerOf s.inCount b == bodyCrc s.inCount b) .checksumMismatch s <|
    succeed (BitVec.ofNat 32 (subsystemIndex y))
      { (s.putHeader w1 w2 w3).putTime (timeOfBytes (b.drop 6)) with
        field := decPayload y ((b.drop 10).take (plen y))
        crcRx := trailerOf s.inCount b
        crcCalc := bodyCrc s.inCount b }

theorem exec_pktParse_of_lt (hlen : s.inLen.toNat < 6) : exec .pktParse s = stopsWith 4 s := by
  rw [exec, execPktParse, require_inLenOk (by omega)]
  exact require_false (Nat.not_le.mpr hlen) _ _ _

/-- Steps 3 to 7 of PKT_PARSE, whatever comes after them: the first that fails ends the command with its error. -/
theorem require_header (s : State) (w1 w2 w3 : Half) (rest : Subsystem → Out) :
    (require (!s.hdrChk || fixedFieldsOk w1 w2) .malformedHeader s <|
      withApid (apidOf w1).toNat s fun y =>
      require (declaredTotal w3 ≤ s.inCount) .incompletePacket s <|
      require (w3.toNat + 1 == 4 + plen y) .malformedPayload s <|
      require (s.inCount == declaredTotal w3) .malformedPayload s (rest y)) =
    headerChecks s.hdrChk s.inCount w1.toNat w2.toNat w3.toNat (stopsWith · s) (withApid (apidOf w1).toNat s rest) := by
  have hdeclared : w3.toNat + 9 = declaredTotal w3 := rfl
  simp only [headerChecks, ← fixedFieldsOk_iff, ← apidOf_toNat, hdeclared]
  by_cases hfixed : s.hdrChk = true ∧ ¬ fixedFieldsOk w1 w2 = true
  · rw [if_pos hfixed]
    exact require_of_false (by simpa using hfixed) _ _ _
  rw [if_neg hfixed, require_of_true (by simpa [imp_iff_not_or] using hfixed)]
  by_cases hapid : (apidOf w1).toNat < 1 ∨ 7 < (apidOf w1).toNat
  · rw [if_pos hapid]
    exact withApid_of_none hapid _ _
  obtain ⟨y, hy⟩ := exists_subsystem_of_apid (a := (apidOf w1).toNat) (by omega) (by omega)
  rw [if_neg hapid, withApid_of_apid hy, withApid_of_apid hy, hy, Nat.add_sub_cancel, ← plen_eq_rulePlen]
  by_cases htotal : s.inCount < declaredTotal w3
  · rw [require_false (Nat.not_le.mpr htotal), if_pos htotal]
    rfl
  rw [require_true (Nat.not_lt.mp htotal), if_neg htotal]
  by_cases hdlen : w3.toNat + 1 = 4 + plen y
  · rw [if_neg (not_not.mpr hdlen), require_of_true (beq_iff_eq.mpr hdlen)]
    by_cases hlen : s.inCount = declaredTotal w3
    · rw [require_of_true (beq_iff_eq.mpr hlen), if_neg (not_not.mpr hlen)]
    · rw [require_of_false (beq_eq_false_iff_ne.mpr hlen), if_pos hlen]
      rfl
  · rw [require_of_false (beq_eq_false_iff_ne.mpr hdlen), if_pos hdlen]
    rfl

/-- Once six bytes are held, the header decides steps 3 to 7, and no byte after it is read before step 8. -/
theorem exec_pktParse_of_holds (hh : h.length = 6) (hmin : 6 ≤ s.inLen.toNat) (hmax : s.inLen.toNat ≤ 256)
    (hheld : Holds s inBase h) : exec .pktParse s =
      headerChecks s.hdrChk s.inCount (headerWord 0 h).toNat (headerWord 1 h).toNat (headerWord 2 h).toNat (stopsWith · s)
        (withApid (apidOf (headerWord 0 h)).toNat s (parseBody s (headerWord 0 h) (headerWord 1 h) (headerWord 2 h))) := by
  have hsix : 6 ≤ s.inCount := hmin
  rw [exec, execPktParse, require_inLenOk hmax, require_true hsix, withInput_of_holds _ hh hheld, ← require_header]
  rfl

theorem trailerOf_eq_ofNat (hb : 2 ≤ b.length) :
    trailerOf b.length b = BitVec.ofNat 16 (Rule.wordAt b (b.length - 2)) := by
  rw [← trailerOf_toNat b hb, BitVec.ofNat_toNat, BitVec.setWidth_eq]

/-- Step 8 of PKT_PARSE and what it commits, in the rule's numbers (45_framer.md R211). -/
theorem parseBody_of_inputIs (hin : InputIs s b) (hb : 10 ≤ b.length) (w1 w2 w3 : Half) (y : Subsystem) :
    parseBody s w1 w2 w3 y =
      if s.ctrl.getLsbD 0 = true ∧ Rule.wordAt b (b.length - 2) ≠ Rule.crc16 (b.take (b.length - 2)) then stopsWith 6 s
      else .next
        { s with phVersion := BitVec.ofNat 3 (w1.toNat / 8192)
                 phType := BitVec.ofNat 1 (w1.toNat / 4096 % 2)
                 phShf := BitVec.ofNat 1 (w1.toNat / 2048 % 2)
                 phApid := BitVec.ofNat 11 (w1.toNat % 2048)
                 phSeqf := BitVec.ofNat 2 (w2.toNat / 16384)
                 phSeq := BitVec.ofNat 14 (w2.toNat % 16384)
                 phDlen := BitVec.ofNat 16 w3.toNat
                 phLength := BitVec.ofNat 17 (w3.toNat + 1)
                 timeCoarse := BitVec.ofNat 24 (Rule.beNat ((b.drop 6).take 3))
                 timeFine := BitVec.ofNat 8 (Rule.beNat ((b.drop 9).take 1))
                 field := decPayload y ((b.drop 10).take (plen y))
                 crcRx := BitVec.ofNat 16 (Rule.wordAt b (b.length - 2))
                 crcCalc := BitVec.ofNat 16 (Rule.crc16 (b.take (b.length - 2)))
                 result := BitVec.ofNat 32 (subsystemIndex y), err := 0, done := true } := by
  have hcount : s.inCount = b.length := hin.1
  have hmatch := trailerOf_eq_bodyCrc_iff (b := b) (by omega)
  have htime := timeOfBytes_eq_of_le (b := b.drop 6) (by rw [List.length_drop]; omega)
  rw [parseBody, withInput_of_inputIs _ hin, hcount]
  by_cases hcrc : s.ctrl.getLsbD 0 = true ∧ Rule.wordAt b (b.length - 2) ≠ Rule.crc16 (b.take (b.length - 2))
  · rw [if_pos hcrc]
    rw [← hmatch.ne] at hcrc
    exact require_of_false (by simpa [State.crcChk] using hcrc) _ _ _
  · rw [if_neg hcrc]
    rw [← hmatch.ne] at hcrc
    rw [require_of_true (by simpa [State.crcChk, imp_iff_not_or] using hcrc), htime, putHeader_eq, bodyCrc, crc16_eq_ofNat,
      trailerOf_eq_ofNat (by omega), List.drop_drop]
    rfl

end Sys2Proof.Machine
end

section
/-! The statements about the packet framer (45_framer.md). -/

namespace Sys2Proof.Machine

/-- Settles O46: the header decides steps 3 to 7 before any byte after it is read, and step 8 is the rule's comparison. -/
theorem pktParseChecksInOrderAndDecodes : Obligations.PktParseChecksInOrderAndDecodes := by
  refine ⟨rfl, fun s => ⟨fun hgt => require_inLenOk_of_gt hgt _, exec_pktParse_of_lt,
    fun h code hh hmin hmax hheld hcode => ?_, fun b hin => ?_⟩⟩
  · rw [exec_pktParse_of_holds hh hmin hmax hheld]
    simp only [headerWord_toNat]
    exact headerChecks_of_eq_some hcode _
  · have ⟨hlen, hmax, hheld⟩ := hin
    by_cases hshort : b.length < 6
    · exact (exec_pktParse_of_lt (by omega)).trans (if_pos hshort).symm
    refine Eq.trans ?_ (if_neg hshort).symm
    obtain ⟨h0, h1, h2⟩ := headerWord_take b
    have hcount : s.inCount = b.length := hlen
    rw [exec_pktParse_of_holds (by simp; omega) (by omega) (by omega) (hheld.take 6), apidOf_toNat, hcount, h0, h1, h2]
    refine headerChecks_congr fun y hy hdlen htotal => ?_
    rw [withApid_of_apid hy, parseBody_of_inputIs hin (by omega), h0, h1, h2, hy, Nat.add_sub_cancel, decPayload_eq,
      plen_eq_rulePlen]

end Sys2Proof.Machine
end

section
/-! What PKT_ASSEMBLE has written where it succeeds, and what PKT_PARSE has found and given where it succeeds (45_framer.md
R210, R211). -/

namespace Sys2Proof.Machine

variable {s t : State} {b p : List Byte} {y : Subsystem} {field : Vector Word Config.nField}

/-- Only fields that all fit have a payload, and it is the rule's (44_payload_mux.md R185). -/
theorem encPayload_eq_some :
    encPayload y field = some p ↔ Rule.AllFit (subsystemIndex y) field ∧ Rule.payload (subsystemIndex y) field = p := by
  rw [encPayload_eq, Option.ite_none_right_eq_some, Option.some_inj]

/-- The rule's checksum is 0 exactly where the trailer is the checksum of the bytes before it. -/
theorem ruleCrc16_eq_zero_iff (hb : 2 ≤ b.length) :
    Rule.crc16 b = 0 ↔ trailerOf b.length b = bodyCrc b.length b := by
  rw [← crc16_eq_zero_iff hb, ← crc16_toNat, ← BitVec.toNat_inj]
  rfl

/-- A packet leaves no residue. -/
theorem ruleCrc16_packet (y q coarse fine : Nat) (p : List Byte) : Rule.crc16 (Rule.packet y q coarse fine p) = 0 := by
  rw [ruleCrc16_eq_zero_iff (by simp; omega), trailerOf_packet, bodyCrc_packet]

/-- A packet declares its subsystem's APID and its schema's length. -/
theorem wordAt_packet (y : Subsystem) (q coarse fine : Nat) (p : List Byte) :
    Rule.wordAt (Rule.packet (subsystemIndex y) q coarse fine p) 0 % 2048 = subsystemIndex y + 1 ∧
    Rule.wordAt (Rule.packet (subsystemIndex y) q coarse fine p) 4 = plen y + 3 := by
  have hy := subsystemIndex_le_six y
  have hpl := plen_le y
  obtain ⟨x, hx⟩ := Rule.packet_eq_header_append (subsystemIndex y) q coarse fine p
  obtain ⟨h0, -, h4⟩ := wordAt_header (subsystemIndex y + 1) q (plen y + 3)
    (Rule.beBytes 3 coarse ++ Rule.beBytes 1 fine ++ x)
  rw [hx, ← plen_eq_rulePlen, h0, h4]
  omega

/-! PKT_ASSEMBLE. -/

/-- PKT_ASSEMBLE succeeded from s to t, for subsystem y. -/
structure Assembled (s t : State) (y : Subsystem) : Prop where
  index : s.argSubsys.toNat = subsystemIndex y
  seq : s.argSeq.toNat ≤ 0x3FFF
  fit : Rule.AllFit (subsystemIndex y) s.field
  output : OutputIs t (assembledPacket s y)
  coarse : t.timeCoarse = (sampleTime s).1
  fine : t.timeFine = (sampleTime s).2

/-- Operands in range and fields that fit are all PKT_ASSEMBLE asks for (45_framer.md R210). -/
theorem exists_assembled (hy : s.argSubsys.toNat = subsystemIndex y) (hq : s.argSeq.toNat ≤ 0x3FFF)
    (hfit : Rule.AllFit (subsystemIndex y) s.field) :
    ∃ t, exec .pktAssemble s = .next t ∧ t.err = 0 ∧ Assembled s t y := by
  have hpl := plen_le y
  have hlen := length_assembledPacket hfit
  exact ⟨_, exec_pktAssemble_of_fit hy hq hfit, rfl, hy, hq, hfit,
    (outputs_of (s := s) (by simp) (by simp) (by omega)).1, rfl, rfl⟩

theorem assembled_of_exec (h : exec .pktAssemble s = .next t) (herr : t.err = 0) : ∃ y, Assembled s t y := by
  obtain ⟨e, -, rfl⟩ | ⟨_, _, ⟨y, p, hy, hq, hp, -, -⟩, -⟩ := exec_cases h
  · exact absurd herr e.code_ne_zero
  · obtain ⟨hfit, -⟩ := encPayload_eq_some.mp hp
    obtain ⟨u, hu, -, hassembled⟩ := exists_assembled hy hq hfit
    cases hu.symm.trans h
    exact ⟨y, hassembled⟩

/-! PKT_PARSE. -/

/-- What is read from the start of an input is what it begins with. -/
theorem readBytes_eq_take {n : Nat} {h : List Byte} (hin : InputIs s b) (hh : s.mem.readBytes inBase n = some h)
    (hn : n ≤ b.length) : h = b.take n := by
  obtain ⟨-, -, hheld⟩ := hin
  exact Option.some.inj (hh.symm.trans (Memory.readBytes_eq_some.mpr ⟨by simp; omega, hheld.take n⟩))

/-- PKT_PARSE succeeded from s to t on the input b, for subsystem y: what it has checked, and what it gave. -/
structure Parsed (s t : State) (b : List Byte) (y : Subsystem) : Prop where
  fixed : s.ctrl.getLsbD 2 = true → Rule.wordAt b 0 / 2048 = 1 ∧ Rule.wordAt b 2 / 16384 = 3
  apid : Rule.wordAt b 0 % 2048 = subsystemIndex y + 1
  dlen : Rule.wordAt b 4 = plen y + 3
  total : b.length = 12 + plen y
  crc : s.ctrl.getLsbD 0 = true → trailerOf b.length b = bodyCrc b.length b
  result : t.result = BitVec.ofNat 32 (subsystemIndex y)
  seq : t.phSeq.toNat = Rule.wordAt b 2 % 16384
  coarse : t.timeCoarse = (timeOfBytes (b.drop 6)).1
  fine : t.timeFine = (timeOfBytes (b.drop 6)).2
  field : t.field = decPayload y ((b.drop 10).take (plen y))

theorem seqOf_toNat (w2 : Half) : (seqOf w2).toNat = w2.toNat % 16384 := by
  simp [seqOf, BitVec.extractLsb'_toNat]

theorem parsed_of_exec (hin : InputIs s b) (h : exec .pktParse s = .next t) (herr : t.err = 0) : ∃ y, Parsed s t b y := by
  have hcount : s.inCount = b.length := hin.1
  obtain ⟨e, -, rfl⟩ |
    ⟨_, _, ⟨h6, b', y, ⟨-, hb'⟩, hmin, hh6, hfixed, hapid, hdlen, htotal, hcrc, rfl, rfl⟩, rfl⟩ := exec_cases h
  · exact absurd herr e.code_ne_zero
  rw [hcount] at hmin hb' htotal hcrc
  obtain rfl : b' = b := (readBytes_eq_take hin hb' le_rfl).trans List.take_length
  obtain rfl := readBytes_eq_take hin hh6 hmin
  obtain ⟨h0, h1, h2⟩ := headerWord_take b'
  rw [fixedFieldsOk_iff, h0, h1] at hfixed
  rw [apidOf_toNat, h0] at hapid
  rw [declaredTotal] at htotal
  rw [h2] at hdlen htotal
  refine ⟨y, fun hchk => ?_, hapid, by omega, by omega, hcrc, rfl, ?_, rfl, rfl, rfl⟩
  · obtain ⟨hver, htype, hshf, hseqf⟩ := hfixed hchk
    exact ⟨by omega, hseqf⟩
  · exact (seqOf_toNat _).trans (by rw [h1])

end Sys2Proof.Machine
end

section
/-! A packet is put together again from what PKT_PARSE gave of it (45_framer.md R213). -/

namespace Sys2Proof.Machine

variable {s t u : State} {b : List Byte} {y : Subsystem}

/-- The bytes of a number read from a run are that run. -/
theorem beBytes_beNat_take {n : Nat} (hn : n ≤ b.length) : Rule.beBytes n (Rule.beNat (b.take n)) = b.take n := by
  conv => lhs; lhs; rw [← List.length_take_of_le hn]
  exact Rule.beBytes_beNat (b.take n)

theorem beBytes_wordAt {i : Nat} (hi : i + 2 ≤ b.length) : Rule.beBytes 2 (Rule.wordAt b i) = (b.drop i).take 2 :=
  beBytes_beNat_take (by rw [List.length_drop]; omega)

/-- Six bytes with the fixed bits of a header are the header of the operands they hold (43_primary_header.md R160). -/
theorem header_of_wordAt (hb : 6 ≤ b.length) (h1 : Rule.wordAt b 0 / 2048 = 1) (h2 : Rule.wordAt b 2 / 16384 = 3) :
    Rule.header (Rule.wordAt b 0 % 2048) (Rule.wordAt b 2 % 16384) (Rule.wordAt b 4) = b.take 6 := by
  have hword1 : 0x0800 + Rule.wordAt b 0 % 2048 = Rule.wordAt b 0 := by omega
  have hword2 : 0xC000 + Rule.wordAt b 2 % 16384 = Rule.wordAt b 2 := by omega
  rw [Rule.header, hword1, hword2, beBytes_wordAt (by omega), beBytes_wordAt (by omega), beBytes_wordAt (by omega),
    List.drop_zero, ← List.take_add, ← List.take_add]

/-- Encoding a decoded time gives its four bytes back (41_timecode.md R124). -/
theorem secondaryHeader_timeOfBytes (hb : 4 ≤ b.length) : secondaryHeader (timeOfBytes b) = b.take 4 := by
  have hcoarse : Rule.beNat (b.take 3) < 2 ^ 24 := by simpa [show 3 ≤ b.length by omega] using Rule.beNat_lt (b.take 3)
  have hfine : Rule.beNat ((b.drop 3).take 1) < 2 ^ 8 := by
    simpa [show 1 ≤ b.length - 3 by omega] using Rule.beNat_lt ((b.drop 3).take 1)
  rw [timeOfBytes_eq_of_le hb, secondaryHeader_eq_beBytes, BitVec.toNat_ofNat, BitVec.toNat_ofNat,
    Nat.mod_eq_of_lt hcoarse, Nat.mod_eq_of_lt hfine, beBytes_beNat_take (by omega),
    beBytes_beNat_take (by rw [List.length_drop]; omega), ← List.take_add]

/-- With HDR_CHK and CRC_CHK set, an input PKT_PARSE accepts is the packet of what it gave. -/
theorem Parsed.eq_packet (h : Parsed s t b y) (hhdr : s.ctrl.getLsbD 2 = true) (hcrc : s.ctrl.getLsbD 0 = true) :
    b = Rule.packet (subsystemIndex y) t.phSeq.toNat t.timeCoarse.toNat t.timeFine.toNat ((b.drop 10).take (plen y)) := by
  have hlen := h.total
  obtain ⟨hbits1, hbits2⟩ := h.fixed hhdr
  have htime : Rule.beBytes 3 t.timeCoarse.toNat ++ Rule.beBytes 1 t.timeFine.toNat = (b.drop 6).take 4 := by
    rw [h.coarse, h.fine, ← secondaryHeader_eq_beBytes, secondaryHeader_timeOfBytes (by rw [List.length_drop]; omega)]
  have hbody : Rule.packetBody (subsystemIndex y) t.phSeq.toNat t.timeCoarse.toNat t.timeFine.toNat
      ((b.drop 10).take (plen y)) = b.take (10 + plen y) := by
    rw [Rule.packetBody, ← plen_eq_rulePlen, ← h.apid, ← h.dlen, h.seq, header_of_wordAt (by omega) hbits1 hbits2,
      List.append_assoc (b.take 6), htime, ← List.take_add, ← List.take_add]
  have htrailer : b.drop (10 + plen y) = Rule.beBytes 2 (Rule.crc16 (b.take (10 + plen y))) := by
    have hback := be16_trailerOf (b := b) (by omega)
    rw [h.crc hcrc, bodyCrc, be16_eq_beBytes, crc16_toNat, show b.length - 2 = 10 + plen y by omega] at hback
    exact hback.symm
  rw [Rule.packet_eq, hbody, ← htrailer, List.take_append_drop]

end Sys2Proof.Machine
end

section
/-! The statements about both ends of the framer (45_framer.md R212, R213). -/

namespace Sys2Proof.Machine

/-- Settles O48: the assembled packet has the rule's layout, and the checks of PKT_PARSE are these facts. -/
theorem packetsKeepTheirInvariants : Obligations.PacketsKeepTheirInvariants := by
  refine ⟨fun s t b ht herr hout => ?_, fun s t b ht herr hin => ?_⟩
  · obtain ⟨y, h⟩ := assembled_of_exec ht herr
    obtain rfl := hout.unique h.output
    obtain ⟨hapid, hdlen⟩ := wordAt_packet y s.argSeq.toNat (sampleTime s).1.toNat (sampleTime s).2.toNat
      (Rule.payload (subsystemIndex y) s.field)
    rw [h.index, ← plen_eq_rulePlen, length_assembledPacket h.fit, assembledPacket, hapid, hdlen]
    exact ⟨by omega, by omega, rfl, ruleCrc16_packet ..⟩
  · obtain ⟨y, h⟩ := parsed_of_exec hin ht herr
    have hy := subsystemIndex_le_six y
    have hlen := h.total
    have hresult : t.result.toNat = subsystemIndex y := by
      rw [h.result, BitVec.toNat_ofNat, Nat.mod_eq_of_lt (by omega)]
    rw [hresult, ← plen_eq_rulePlen, h.apid, h.dlen]
    exact ⟨by omega, by omega, rfl, fun hcrc => (ruleCrc16_eq_zero_iff (by omega)).mpr (h.crc hcrc)⟩

/-- Settles O49: the assembled packet has the wire layout, which PKT_PARSE accepts whatever CTRL is, and the payload codecs
invert each other. -/
theorem parseInvertsAssemble : Obligations.ParseInvertsAssemble := by
  intro s t u b ht herr hout hin
  obtain ⟨y, h⟩ := assembled_of_exec ht herr
  obtain rfl := hout.unique h.output
  have hy := subsystemIndex_le_six y
  have hpl := plen_le y
  have hq := h.seq
  have henc : encPayload y s.field = some (Rule.payload (subsystemIndex y) s.field) := encPayload_eq_some.mpr ⟨h.fit, rfl⟩
  have hparse := exec_pktParse_of_effect (effect_pktParse_packet h.seq (length_payload h.fit) hin)
  rw [h.index, ← plen_eq_rulePlen, ← nf_eq_ruleNf]
  refine ⟨_, hparse, rfl, ?result, ?apid, ?seq, ?dlen, ?coarse, ?fine, fun i hi => getElem_decPayload_of_encPayload henc hi,
    rfl⟩
  case result => exact BitVec.eq_of_toNat_eq ((Nat.mod_eq_of_lt (by omega)).trans h.index.symm)
  case apid => exact Nat.mod_eq_of_lt (by omega)
  case seq => exact Nat.mod_eq_of_lt (by omega)
  case dlen => exact Nat.mod_eq_of_lt (by omega)
  case coarse => rw [h.coarse]; simp
  case fine => rw [h.fine]; simp

/-- Settles O50: what a fully checked PKT_PARSE gave are the operands of the packet it parsed. -/
theorem assembleInvertsParse : Obligations.AssembleInvertsParse := by
  intro s t u b hin hhdr hcrc ht herr hsub hseq hsrc htime hfield
  obtain ⟨y, h⟩ := parsed_of_exec hin ht herr
  have hy := subsystemIndex_le_six y
  have hlen := h.total
  have hindex : u.argSubsys.toNat = subsystemIndex y := by
    rw [hsub, h.result, BitVec.toNat_ofNat, Nat.mod_eq_of_lt (by omega)]
  have henc : encPayload y u.field = some ((b.drop 10).take (plen y)) := by
    rw [hfield, h.field, encPayload_decPayload (by simp; omega)]
  obtain ⟨hfit, hpayload⟩ := encPayload_eq_some.mp henc
  obtain ⟨hcoarse, hfine⟩ := sampleTime_toNat_of_timeIn hsrc
  have hpacket : assembledPacket u y = b := by
    have hlt := t.timeFine.isLt
    rw [assembledPacket, hpayload, hcoarse, hfine, hseq, htime, Nat.mul_comm, Nat.mul_add_div (by decide),
      Nat.div_eq_of_lt hlt, Nat.add_zero, Nat.mul_add_mod, Nat.mod_eq_of_lt hlt]
    exact (h.eq_packet hhdr hcrc).symm
  obtain ⟨v, hv, hverr, hassembled⟩ := exists_assembled hindex (by omega) hfit
  exact ⟨v, hv, hverr, hpacket ▸ hassembled.output⟩

end Sys2Proof.Machine
end

section
/-! How a command can end (60_exceptions.md R241, R247; 70_reset_and_hazards.md R271, R273): a word that is no command raises
IllegalCommand, and a command answers a next state unless it reaches an unwritten input byte. -/

namespace Sys2Proof.Machine

variable {s : State}

/-- A word that is no command's decodes to no command, and is answered by STATUS alone (60_exceptions.md R247). -/
theorem runCommand_of_illegal {w : Word} (hw : ∀ i, encode i ≠ w) (s : State) : runCommand w s = stopsWith 9 s := by
  cases hd : decodeWord w with
  | ok i => exact absurd ((commandWordsDecodeExactly w i).mp hd).symm (hw i)
  | error r => exact runCommand_of_reject hd s

/-- A command run from s answers a next state, or stops on an unwritten byte of the input (70_reset_and_hazards.md R271). -/
def AnswersOrStops (s : State) (o : Out) : Prop :=
  (∃ t, o = .next t) ∨
    (o = .fault .unwrittenByte ∧ ∃ k, k < s.inLen.toNat ∧ k < 256 ∧ s.mem.read (inBase + k) = none)

namespace AnswersOrStops

theorem fail (e : ErrCode) : AnswersOrStops s (fail e s) := .inl ⟨_, rfl⟩

theorem succeed (v : Word) (u : State) : AnswersOrStops s (succeed v u) := .inl ⟨_, rfl⟩

theorem require {ok : Bool} {e : ErrCode} {rest : Out} (h : ok = true → AnswersOrStops s rest) :
    AnswersOrStops s (require ok e s rest) := by
  cases ok with
  | true => exact h rfl
  | false => exact fail e

/-- A command that reads its input has checked IN_LEN (60_exceptions.md R245), and reads no byte beyond it. -/
theorem withInput {count : Nat} {k : List Byte → Out} (hlen : s.inLenOk = true) (hcount : count ≤ s.inCount)
    (h : ∀ b, AnswersOrStops s (k b)) : AnswersOrStops s (withInput 0 count s k) := by
  unfold Machine.withInput
  split
  · exact h _
  next hb =>
    obtain ⟨j, hj, hread⟩ := Memory.readBytes_eq_none.mp hb
    have hin : j < s.inLen.toNat := Nat.lt_of_lt_of_le hj hcount
    have hcap : j < 256 := Nat.lt_of_lt_of_le hin (s.inLenOk_iff.mp hlen)
    exact .inr ⟨rfl, j, hin, hcap, hread⟩

theorem withSubsystem {w : Word} {k : Subsystem → Out} (h : ∀ y, AnswersOrStops s (k y)) :
    AnswersOrStops s (withSubsystem w s k) := by
  unfold Machine.withSubsystem
  split
  · exact h _
  · exact fail _

theorem withApid {n : Nat} {k : Subsystem → Out} (h : ∀ y, AnswersOrStops s (k y)) :
    AnswersOrStops s (withApid n s k) := by
  unfold Machine.withApid
  split
  · exact h _
  · exact fail _

theorem withPayload {y : Subsystem} {k : List Byte → Out} (h : ∀ p, AnswersOrStops s (k p)) :
    AnswersOrStops s (withPayload y s k) := by
  unfold Machine.withPayload
  split
  · exact h _
  · exact fail _

/-- On a written input buffer there is no byte to stop on. -/
theorem exists_next {o : Out} (h : AnswersOrStops s o) (hin : InputWritten s) : ∃ t, o = .next t := by
  obtain hnext | ⟨_, k, _, hk, hread⟩ := h
  · exact hnext
  · have hwritten := hin k hk
    simp [hread] at hwritten

end AnswersOrStops

/-- Each command is a chain of checks, lookups and reads of the input, with its commit at the end. -/
theorem exec_answersOrStops (i : Instr) (s : State) : AnswersOrStops s (exec i s) := by
  cases i with
  | crcInit => exact .succeed _ _
  | crcFeed => exact .require fun hlen => .withInput hlen le_rfl fun _ => .succeed _ _
  | crcCompute => exact .require fun hlen => .withInput hlen le_rfl fun _ => .succeed _ _
  | crcAppend => exact .require fun hlen => .require fun _ => .withInput hlen le_rfl fun _ => .succeed _ _
  | crcVerify =>
    exact .require fun hlen => .require fun _ => .withInput hlen le_rfl fun _ => .require fun _ => .succeed _ _
  | timeEncode => exact .succeed _ _
  | timeDecode =>
    exact .require fun hlen => .require fun h4 => .withInput hlen (eq_of_beq h4).ge fun _ => .succeed _ _
  | dirApidFor => exact .withSubsystem fun _ => .succeed _ _
  | dirSubsysFor => exact .withApid fun _ => .succeed _ _
  | dirCount => exact .succeed _ _
  | phEncode => exact .require fun _ => .require fun _ => .require fun _ => .succeed _ _
  | phDecode =>
    exact .require fun hlen => .require fun h6 => .withInput hlen (of_decide_eq_true h6) fun _ =>
      .require fun _ => .succeed _ _
  | plEncode => exact .withSubsystem fun _ => .withPayload fun _ => .succeed _ _
  | plDecode =>
    exact .require fun hlen => .withSubsystem fun _ => .require fun _ => .withInput hlen le_rfl fun _ => .succeed _ _
  | pktAssemble => exact .withSubsystem fun _ => .require fun _ => .withPayload fun _ => .succeed _ _
  | pktParse =>
    exact .require fun hlen => .require fun h6 => .withInput hlen (of_decide_eq_true h6) fun _ => .require fun _ =>
      .withApid fun _ => .require fun _ => .require fun _ => .require fun _ => .withInput hlen le_rfl fun _ =>
        .require fun _ => .succeed _ _

end Sys2Proof.Machine
end

section
/-! The statements about exceptions (60_exceptions.md): the illegal word, the completion of every command and the idle step. -/

namespace Sys2Proof.Machine

/-- Settles O3: the CMD write runs its word, which decodes to no command. -/
theorem illegalWordRaisesIllegalCommand : Obligations.IllegalWordRaisesIllegalCommand := fun _ _ _ hr he hw =>
  (step_of_cmdWrite hr he).trans (runCommand_of_illegal hw _)

/-- Settles O52: a command stops on an unwritten input byte only, and there is none. -/
theorem commandsCompleteOnWrittenInput : Obligations.CommandsCompleteOnWrittenInput := fun i s hin =>
  (exec_answersOrStops i s).exists_next hin

/-- Settles O6: the step takes the next event, and there is none. -/
theorem idleBlockHoldsItsState : Obligations.IdleBlockHoldsItsState := by
  intro s he
  simp only [step, he]

end Sys2Proof.Machine
end

section
/-! A step under the reset input (70_reset_and_hazards.md R270): what asserting and releasing it do, and what becomes of a
transaction while it is held. -/

namespace Sys2Proof.Machine

variable {s : State} {rest : List HostEvent}

theorem step_of_assertReset (h : s.events = .assertReset :: rest) :
    step s = .next { s with events := rest }.takeReset := step_of_event h

theorem step_of_releaseReset (h : s.events = .releaseReset :: rest) :
    step s = .next { s with events := rest, resetAsserted := false } := step_of_event h

/-- The counterpart of step_of_access. -/
theorem step_of_access_in_reset {a : BusAccess} (hr : s.resetAsserted = true) (h : s.events = .access a :: rest) :
    step s = .refused .resetAsserted := by
  rw [step_of_event h]
  exact if_pos hr

end Sys2Proof.Machine
end

section
/-! The statements about reset and hazards (70_reset_and_hazards.md): the reset input, transactions during reset, the
invariant at reset, and the one stop of a command. -/

namespace Sys2Proof.Machine

/-- Settles O53: no command leaves a combinator that answers, but for a read of its input that meets an unwritten byte. -/
theorem commandsStopOnlyOnUnwrittenInput : Obligations.CommandsStopOnlyOnUnwrittenInput := exec_answersOrStops

/-- Settles O8: the first step takes the reset, and the second, if the input is released next, only releases it. -/
theorem resetInputRestoresTheResetState : Obligations.ResetInputRestoresTheResetState := by
  refine ⟨fun s rest he => step_of_assertReset he, fun s rest he => ?_⟩
  calc steps 2 s
    _ = steps 1 _ := steps_succ 1 (step_of_assertReset he)
    _ = steps 0 _ := steps_succ 0 (step_of_releaseReset rfl)
    _ = .next { State.reset with samples := s.samples, events := rest } := rfl

/-- Settles O9: the step takes the transaction off the list and refuses it. -/
theorem transactionsAreRefusedDuringReset : Obligations.TransactionsAreRefusedDuringReset :=
  fun _ _ _ hr he => step_of_access_in_reset hr he

/-- Settles O10: nothing is written, STATUS is clear, and no header was decoded. -/
theorem invariantHoldsAtReset : Obligations.InvariantHoldsAtReset := Inv.reset

end Sys2Proof.Machine
end
